-- ==== Sys2Proof/Word.lean ====
section
/-! DEFINITION. The two word formats of the block, as types (30_encoding.md R37, R43), and the two's complement
reading of a value word (00_scope.md section 5: `sint_2040`, `tc_2040`). -/

namespace Sys2Proof

/-- A compact word: 32 bits, `[exponent:8][sign:1][mantissa:23]` (30_encoding.md R37). Ports `dec_compact`, `enc_compact`. -/
abbrev CompactWord := BitVec 32

/-- A value word: 2040 bits, two's complement (30_encoding.md R43). Ports `dec_value`, `enc_value`. -/
abbrev ValueWord := BitVec 2040

/-- `sint_2040`: the integer a value word stands for (10_state.md R21). -/
abbrev sint (w : ValueWord) : Int := w.toInt

/-- `tc_2040`: the value word of an integer, `x mod 2^2040` (00_scope.md section 5). -/
abbrev tc (x : Int) : ValueWord := BitVec.ofInt 2040 x

end Sys2Proof
end

