-- ==== Sys2Proof/Config.lean ====
section
/-! DEFINITION. What the spec fixes as a named constant beside its source, and the free values: outputs the spec
leaves without a value. A free value has no body, so nothing can be proved of it. -/

namespace Sys2Proof

/-- `ENC_OVF_EXP` (00_scope.md section 4): the exponent field I2C drives when the final size is 256. UNVERIFIED:
the spec's decision D5 (41_i2c_encode.md R81), which the source does not back (93_implementation_defined.md U1);
log 4, unsafe. -/
def Config.encOvfExp : BitVec 8 := 0x00#8

/-- `dec_value` while C2I's input is not a held binary word (70_reset_and_hazards.md R111, R116); log 3. -/
opaque Config.freeDecValue : Nat → ValueWord

/-- `enc_compact` while I2C's input is not a held binary word (70_reset_and_hazards.md R111, R116); log 3. -/
opaque Config.freeEncCompact : Nat → CompactWord

/-- `enc_ovf` while I2C's input is not a held binary word (70_reset_and_hazards.md R111, R116); log 3. -/
opaque Config.freeEncOvf : Nat → Bool

end Sys2Proof
end

