-- ==== Sys2Proof/Script.lean ====
section
/-! DEFINITION. The host's script of evaluations (30_encoding.md R51; 95_test_vectors.md section 3) as data. It has no
existence in the hardware: the block has no program and no program counter (10_state.md R13). -/

namespace Sys2Proof

/-- A name of a script (R51). Names are only compared for equality. -/
abbrev Name := List Char

/-- `op := "C2I" | "I2C"` (R51). -/
inductive Op
  | c2i
  | i2c
deriving DecidableEq, Repr

/-- The level of one input pin. Only `low` and `high` are binary; `x` is an invalid level, `z` an undriven pin
(70_reset_and_hazards.md R116). -/
inductive Level
  | low
  | high
  | x
  | z
deriving DecidableEq, Repr

/-- What a line evaluates its unit on. -/
inductive Operand
  /-- A literal, as the integer it writes (R51). -/
  | literal (value : Int)
  /-- The integer a name was bound to (R51); never the overflow bit of a binding: DESIGN CHOICE, log 13. -/
  | name (n : Name)
  /-- The levels at the pins of the port, pin 0 first: how the host can present an input that is not a binary word
  (70_reset_and_hazards.md R116); log 7. -/
  | levels (pins : List Level)
deriving DecidableEq, Repr

/-- `line := name "=" op operand` (R51). -/
structure Line where
  name    : Name
  op      : Op
  operand : Operand
deriving DecidableEq, Repr

/-- One thing the host does to the block. -/
inductive HostAction
  /-- Present an operand, hold it, sample the outputs, bind the name (R9, R51). -/
  | eval (line : Line)
  /-- Stop driving the unit's input port, which R114 allows once the outputs are sampled; log 7. -/
  | release (op : Op)
deriving DecidableEq, Repr

/-- What a line bound: the integer, and `name.ovf` for an I2C line (R51). C2I has no flag (10_state.md R14), so a C2I
line binds none. -/
structure Binding where
  name  : Name
  value : Int
  ovf   : Option Bool
deriving DecidableEq, Repr

end Sys2Proof
end

