-- ==== Sys2Proof/Machine/Operands.lean ====
section
/-! DEFINITION. Operand forms: the fields of a compact word and their packing, bit and byte lengths, the bytes of a
value word, the port word of a script's integer and of pin levels. -/

namespace Sys2Proof.Machine

/-- `size = c[31:24]`, unsigned (30_encoding.md R41; 40_c2i_decode.md R54). -/
def sizeField (c : CompactWord) : BitVec 8 := c.extractLsb' 24 8

/-- `sbit = c[23]` (30_encoding.md R41). -/
def signBit (c : CompactWord) : Bool := c.getLsbD 23

/-- `word = c[22:0]`, unsigned (30_encoding.md R41). -/
def mantissaField (c : CompactWord) : BitVec 23 := c.extractLsb' 0 23

/-- `{s[7:0], g, m[22:0]}` (30_encoding.md R42). -/
def packCompact (size : BitVec 8) (sign : Bool) (mantissa : BitVec 23) : CompactWord :=
  size ++ BitVec.ofBool sign ++ mantissa

/-- `bitLength(v)`: 0 for 0, else the `k` with `2^(k-1) ≤ v < 2^k` (00_scope.md section 5). -/
def bitLength (v : Nat) : Nat := if v = 0 then 0 else Nat.log2 v + 1

/-- `byteLen(v) = ceil(bitLength(v) / 8)` (00_scope.md section 5; 41_i2c_encode.md R69). -/
def byteLen (v : Nat) : Nat := (bitLength v + 7) / 8

/-- `byte_i(w) = w[8i+7:8i]`: a numbering by significance, not a memory order (20_memory.md R28). -/
def byteOf (w : ValueWord) (i : Nat) : BitVec 8 := w.extractLsb' (8 * i) 8

/-- The width of the unit's input port (10_state.md R10). -/
def portWidth : Op → Nat
  | .c2i => 32
  | .i2c => 2040

/-- The unit index of spec/opcode_table.json: a label, carried by no wire (30_encoding.md R46). -/
def unitIndex : Op → Nat
  | .c2i => 0
  | .i2c => 1

/-- The integers a line's operand may stand for: "for C2I it must lie in 0 .. 2^32-1, for I2C in -2^2039 .. 2^2039-1"
(30_encoding.md R51). -/
def inPortRange (op : Op) (x : Int) : Bool :=
  match op with
  | .c2i => decide (0 ≤ x ∧ x < 2 ^ 32)
  | .i2c => decide (-2 ^ 2039 ≤ x ∧ x < 2 ^ 2039)

/-- The port word of an integer in the port's range, read unsigned: the integer itself for C2I, `tc_2040` of it for
I2C (30_encoding.md R51). -/
def integerWord (op : Op) (x : Int) : Option Nat :=
  if inPortRange op x then
    match op with
    | .c2i => some x.toNat
    | .i2c => some (tc x).toNat
  else none

/-- The unsigned number that pin levels give, pin 0 of weight 1 (20_memory.md R26), if every level is binary. -/
def levelsNumber : List Level → Option Nat
  | [] => some 0
  | .low :: pins => (levelsNumber pins).map (2 * ·)
  | .high :: pins => (levelsNumber pins).map (2 * · + 1)
  | .x :: _ => none
  | .z :: _ => none

/-- The port word that pin levels give: none unless there is one binary level for each pin of the port
(70_reset_and_hazards.md R116); log 7. -/
def levelsWord (op : Op) (pins : List Level) : Option Nat :=
  if pins.length = portWidth op then levelsNumber pins else none

end Sys2Proof.Machine
end

