-- ==== Sys2Proof/Syntax.lean ====
section
/-! DEFINITION. The operations of the block: one constructor per row of spec/opcode_table.json (30_encoding.md R46). -/

namespace Sys2Proof

/-- An evaluation: the unit whose input port is driven, with the word on that port (00_scope.md R9; 30_encoding.md
R46). Every word of the port's width is a legal operand (R44, R45), so a term of this type is well formed. -/
inductive Instr
  /-- C2I: decode the compact word on `dec_compact` (40_c2i_decode.md R53). -/
  | c2i (compact : CompactWord)
  /-- I2C: encode the value word on `enc_value` (41_i2c_encode.md R67). -/
  | i2c (value : ValueWord)
deriving DecidableEq, Repr

end Sys2Proof
end

