-- ==== Sys2Proof/Decode.lean ====
section
/-! DEFINITION. From the encoding of an evaluation, the pair (unit index, operand word) (95_test_vectors.md section 3;
30_encoding.md R46), to the instruction, and back. The ports carry numbers: no byte order exists (20_memory.md R26), so
nothing here is a list of bytes. -/

namespace Sys2Proof

open Sys2Proof.Machine

/-- Why a pair (unit index, operand word) encodes no evaluation. -/
inductive DecodeError
  /-- The block has no unit of this index (30_encoding.md R46, R121). Safe: nothing runs. -/
  | noSuchUnit (unit : Nat)
  /-- The number is no word of the unit's input port (10_state.md R10; 93_implementation_defined.md U2). Safe. -/
  | notAWordOfThePort (unit word : Nat)
deriving DecidableEq, Repr

/-- The evaluation that a pair (unit index, operand word) encodes. No bit of the word selects anything (R46). -/
def decode (unit word : Nat) : Except DecodeError Instr :=
  match unit with
  | 0 => if word < 2 ^ 32 then .ok (.c2i (BitVec.ofNat 32 word)) else .error (.notAWordOfThePort 0 word)
  | 1 => if word < 2 ^ 2040 then .ok (.i2c (BitVec.ofNat 2040 word)) else .error (.notAWordOfThePort 1 word)
  | u + 2 => .error (.noSuchUnit (u + 2))

/-- The pair (unit index, operand word) of an evaluation. -/
def encode : Instr → Nat × Nat
  | .c2i c => (unitIndex .c2i, c.toNat)
  | .i2c w => (unitIndex .i2c, w.toNat)

/-- Which unit a word of `nbits` bits is presented to: selection is structural (R46), and the two ports differ in
width, so the width names the port. A shorter word is one whose bits above `nbits` are 0. DESIGN CHOICE, log 5. -/
def unitOfWidth (nbits : Nat) : Option Op :=
  if nbits ≤ portWidth .c2i then some .c2i else if nbits ≤ portWidth .i2c then some .i2c else none

/-- The instruction the decoder reads from a word of `nbits` bits numbered as spec/opcode_table.json numbers them. -/
def decodeTableWord (nbits w : Nat) : Option Instr :=
  match unitOfWidth nbits with
  | some op => (decode (unitIndex op) w).toOption
  | none => none

end Sys2Proof
end

