-- ==== Sys2Proof/Machine/Flags.lean ====
section
/-! DEFINITION. The predicates of the two datapaths and the one status output `enc_ovf` (10_state.md R14). No flag is
stored, and C2I writes none. -/

namespace Sys2Proof.Machine

/-- C2I's sign predicate, from the unshifted mantissa field: "true iff word ≠ 0 AND bit 23 ... is set"
(40_c2i_decode.md R55; 30_encoding.md R39). -/
def c2iNegative (c : CompactWord) : Bool := signBit c && mantissaField c != 0#23

/-- I2C's renormalising test: bit 23 of the 24-bit intermediate (41_i2c_encode.md R77). -/
def renormalises (m24 : Nat) : Bool := m24.testBit 23

/-- I2C's sign decision `g = negative and (m23 ≠ 0)` (41_i2c_encode.md R80). -/
def i2cSign (x : Int) (m23 : Nat) : Bool := decide (x < 0) && m23 != 0

/-- `enc_ovf = sizef[8]` (41_i2c_encode.md R81). -/
def ovfOfSize (sizef : Nat) : Bool := sizef.testBit 8

end Sys2Proof.Machine
end

