-- ==== Sys2Proof/Machine/Codec.lean ====
section
/-! DEFINITION. The functions of the two units, step by step as the spec's pseudocode has them: 40_c2i_decode.md R53
and 41_i2c_encode.md R67. All arithmetic is over the integers until the output word is formed. -/

namespace Sys2Proof.Machine

/-- `mag`: the mantissa shifted right by `8 × (3 − size)` bits if `size ≤ 3`, else left by `8 × (size − 3)`
(40_c2i_decode.md R56). -/
def c2iMagnitude (size word : Nat) : Nat :=
  if size ≤ 3 then word >>> (8 * (3 - size)) else word <<< (8 * (size - 3))

/-- `result`: the magnitude, negated when the sign predicate holds (40_c2i_decode.md R61). -/
def c2iResult (c : CompactWord) : Int :=
  let mag : Int := c2iMagnitude (sizeField c).toNat (mantissaField c).toNat
  if c2iNegative c then -mag else mag

/-- What C2I drives on `dec_value` for `c` on `dec_compact` (40_c2i_decode.md R53, R62). -/
def c2iValue (c : CompactWord) : ValueWord := tc (c2iResult c)

/-- The window shifter: `v` left by `8 × (3 − size)` if `size ≤ 3`, else right by `8 × (size − 3)`
(41_i2c_encode.md R71, R72). -/
def windowShift (size v : Nat) : Nat :=
  if size ≤ 3 then v <<< (8 * (3 - size)) else v >>> (8 * (size - 3))

/-- `m24`, the intermediate before renormalising (41_i2c_encode.md R67). -/
def i2cWindow (v : Nat) : Nat := windowShift (byteLen v) v

/-- `mant`: the intermediate, shifted right by 8 when its bit 23 is set (41_i2c_encode.md R77). -/
def i2cMantissa (v : Nat) : Nat := if renormalises (i2cWindow v) then i2cWindow v >>> 8 else i2cWindow v

/-- `sizef`: the byte length, one more when renormalising (41_i2c_encode.md R77, R78). -/
def i2cSize (v : Nat) : Nat := if renormalises (i2cWindow v) then byteLen v + 1 else byteLen v

/-- `m23 = mant & 0x007FFFFF` (41_i2c_encode.md R79). -/
def i2cMantissaField (v : Nat) : Nat := i2cMantissa v &&& 0x007FFFFF

/-- The exponent field: the final size, or `ENC_OVF_EXP` when the final size does not fit (41_i2c_encode.md R79, R81). -/
def exponentField (sizef : Nat) : BitVec 8 :=
  if sizef ≤ 255 then BitVec.ofNat 8 sizef else Config.encOvfExp

/-- What I2C drives on `enc_compact` for `w` on `enc_value` (41_i2c_encode.md R67, R82). -/
def i2cCompact (w : ValueWord) : CompactWord :=
  let v := (sint w).natAbs
  packCompact (exponentField (i2cSize v)) (i2cSign (sint w) (i2cMantissaField v)) (BitVec.ofNat 23 (i2cMantissaField v))

/-- What I2C drives on `enc_ovf` for `w` on `enc_value` (41_i2c_encode.md R67, R81). -/
def i2cOvf (w : ValueWord) : Bool := ovfOfSize (i2cSize (sint w).natAbs)

end Sys2Proof.Machine
end

