-- ==== Sys2Proof/Machine/State.lean ====
section
/-! DEFINITION. The state of the model: the five ports of the block (10_state.md R10, R11), the host's script and the
names it bound (30_encoding.md R51; 70_reset_and_hazards.md R113), and the model's own index of free values. The block
itself has no state, no program counter, no memory and no exception. -/

namespace Sys2Proof.Machine

/-- What is on an input port: a binary word the environment holds (70_reset_and_hazards.md R114), or anything else
(undriven, floating, an invalid level: R116). This is the spec's own distinction, not a missing reset value; log 2. -/
inductive InPort (width : Nat)
  | held (word : BitVec width)
  | notBinary
deriving DecidableEq, Repr

/-- The machine. Fields of the ports as in 10_state.md R10. -/
structure State where
  /-- `dec_compact`, input of C2I. -/
  decCompact : InPort 32
  /-- `dec_value`, output of C2I. -/
  decValue : ValueWord
  /-- `enc_value`, input of I2C. -/
  encValue : InPort 2040
  /-- `enc_compact`, output of I2C. -/
  encCompact : CompactWord
  /-- `enc_ovf`, status output of I2C (R14): a wire, not a stored flag. -/
  encOvf : Bool
  /-- The host's actions still to do, first one first (R51, R113); log 1. -/
  script : List HostAction
  /-- The host's bindings, latest first (R51, R113); log 1. -/
  bindings : List Binding
  /-- The MODEL's own: which free values the outputs of an undriven unit have now; log 3. -/
  freeIdx : Nat
deriving DecidableEq, Repr

/-- Nothing faults: the list of exception causes is empty (60_exceptions.md R100). -/
inductive Fault
deriving DecidableEq, Repr

/-- Why a step is refused. All but `notModelled` lie outside the block's function (60_exceptions.md R109). -/
inductive Refusal
  /-- Raised by an arm of `exec` for an instruction without a meaning yet (there is none). Safe. -/
  | notModelled (mnemonic : String)
  /-- Raised by `State.fetch`: the integer of the line's operand is no word of the port, by name and line
  (93_implementation_defined.md U2; 30_encoding.md R51). Safe. -/
  | operandOutOfRange (line : Line)
  /-- Raised by `State.fetch`: the input presented is not a binary word of the port (70_reset_and_hazards.md R116;
  log 7). Safe. -/
  | inputNotBinary (line : Line)
  /-- Raised by `State.fetch`: the line's operand is a name not bound yet (93_implementation_defined.md U8; log 8).
  Safe. -/
  | nameNotBound (line : Line)
  /-- Raised by `State.fetch`: the line's name is bound already (93_implementation_defined.md U8: "every line binds a
  new name"; log 8). Safe. -/
  | nameAlreadyBound (line : Line)
deriving DecidableEq, Repr

/-- The state at power-up: no reset value exists (10_state.md R23). Nothing drives the inputs, so the outputs are
unspecified (70_reset_and_hazards.md R111): free values; log 2, log 3. The host has no script and no name is bound. -/
def State.reset : State where
  decCompact := .notBinary
  decValue := Config.freeDecValue 0
  encValue := .notBinary
  encCompact := Config.freeEncCompact 0
  encOvf := Config.freeEncOvf 0
  script := []
  bindings := []
  freeIdx := 0

end Sys2Proof.Machine
end

