-- ==== Sys2Proof/Machine/Ops.lean ====
section
/-! DEFINITION. The operations on the ports and on the host's script. The block has no memory (20_memory.md R25) and no
exception (60_exceptions.md R100, R104, R105), so there is no memory access and no exception entry or return here. -/

namespace Sys2Proof.Machine

/-- `dec_value` as a function of C2I's input port (10_state.md R11): the unit's function of a held word, else the
`k`-th free value (70_reset_and_hazards.md R111, R116; log 3). -/
def decValueOf (k : Nat) : InPort 32 → ValueWord
  | .held c => c2iValue c
  | .notBinary => Config.freeDecValue k

/-- `enc_compact` as a function of I2C's input port (10_state.md R11). -/
def encCompactOf (k : Nat) : InPort 2040 → CompactWord
  | .held w => i2cCompact w
  | .notBinary => Config.freeEncCompact k

/-- `enc_ovf` as a function of I2C's input port (10_state.md R11, R14). -/
def encOvfOf (k : Nat) : InPort 2040 → Bool
  | .held w => i2cOvf w
  | .notBinary => Config.freeEncOvf k

/-- The environment holds `c` on `dec_compact`; C2I drives `dec_value` (00_scope.md R9; 40_c2i_decode.md R62). No port
of I2C is touched (10_state.md R24). -/
def State.driveC2i (s : State) (c : CompactWord) : State := { s with decCompact := .held c, decValue := c2iValue c }

/-- The environment holds `w` on `enc_value`; I2C drives `enc_compact` and `enc_ovf` (00_scope.md R9; 41_i2c_encode.md
R82). No port of C2I is touched (10_state.md R24). -/
def State.driveI2c (s : State) (w : ValueWord) : State :=
  { s with encValue := .held w, encCompact := i2cCompact w, encOvf := i2cOvf w }

/-- The environment stops driving one unit's input; log 7. -/
def State.release (s : State) : Op → State
  | .c2i => { s with decCompact := .notBinary }
  | .i2c => { s with encValue := .notBinary }

/-- The outputs follow the inputs: each output is the function of its unit's input port, and an unspecified output
takes a new free value (10_state.md R11; 70_reset_and_hazards.md R111, R116; log 3). -/
def State.settle (s : State) : State :=
  { s with
    decValue := decValueOf (s.freeIdx + 1) s.decCompact
    encCompact := encCompactOf (s.freeIdx + 1) s.encValue
    encOvf := encOvfOf (s.freeIdx + 1) s.encValue
    freeIdx := s.freeIdx + 1 }

/-- What a line binds, read from the unit's outputs: `sint_2040(dec_value)` for C2I; `uint(enc_compact)` and `enc_ovf`
for I2C (30_encoding.md R51). -/
def State.sample (s : State) (l : Line) : Binding :=
  match l.op with
  | .c2i => ⟨l.name, sint s.decValue, none⟩
  | .i2c => ⟨l.name, s.encCompact.toNat, some s.encOvf⟩

/-- Bind the line's name to the sampled outputs. -/
def State.bindResult (s : State) (l : Line) : State := { s with bindings := s.sample l :: s.bindings }

/-- The binding of a name. -/
def State.lookup (s : State) (n : Name) : Option Binding := s.bindings.find? (·.name == n)

/-- The port word of a line's operand, or why there is none (30_encoding.md R51; 93_implementation_defined.md U2, U8;
70_reset_and_hazards.md R116). A name stands for the integer it was bound to; R51 leaves open whether `name.ovf`, which
an I2C line binds as well, may be an operand, and here no operand reads it: DESIGN CHOICE, safe, log 13. -/
def State.operandWord (s : State) (l : Line) : Except Refusal Nat :=
  match l.operand with
  | .literal x =>
    match integerWord l.op x with
    | some word => .ok word
    | none => .error (.operandOutOfRange l)
  | .levels pins =>
    match levelsWord l.op pins with
    | some word => .ok word
    | none => .error (.inputNotBinary l)
  | .name n =>
    match s.lookup n with
    | none => .error (.nameNotBound l)
    | some b =>
      match integerWord l.op b.value with
      | some word => .ok word
      | none => .error (.operandOutOfRange l)

/-- The evaluation a line asks for: its operand's port word, decoded for the line's unit. -/
def State.fetch (s : State) (l : Line) : Except Refusal Instr :=
  if (s.lookup l.name).isSome then .error (.nameAlreadyBound l)
  else
    match s.operandWord l with
    | .error r => .error r
    | .ok word =>
      match decode (unitIndex l.op) word with
      | .ok i => .ok i
      | .error _ => .error (.operandOutOfRange l)

/-- After an evaluation: the outputs are settled (70_reset_and_hazards.md R115), sampled and bound. -/
def finishLine (l : Line) : Host.Outcome State Fault Refusal → Host.Outcome State Fault Refusal
  | .next t => .next (t.settle.bindResult l)
  | .fault f => .fault f
  | .refused r => .refused r

/-- The integer that a script writes for a port word (30_encoding.md R51); a number that is no port word is itself. -/
def wordInteger (op : Op) (word : Nat) : Int :=
  match op with
  | .c2i => word
  | .i2c => if word < 2 ^ 2040 then sint (BitVec.ofNat 2040 word) else word

/-- The name an action binds. -/
def actionName : HostAction → Option Name
  | .eval l => some l.name
  | .release _ => none

/-- Every name bound, or to be bound by the script. -/
def State.usedNames (s : State) : List Name := s.bindings.map (·.name) ++ s.script.filterMap actionName

/-- A name longer than every used one, so that a line may bind it. -/
def State.freshName (s : State) : Name :=
  'w' :: List.replicate ((s.usedNames.map List.length).foldr max 0) 'w'

/-- The line that presents a word of `nbits` bits to the unit it is meant for (log 5, log 6). For a width that no port
has, a line that is refused. -/
def State.lineOfWord (s : State) (nbits word : Nat) : Line :=
  match unitOfWidth nbits with
  | some op => ⟨s.freshName, op, .literal (wordInteger op word)⟩
  | none => ⟨s.freshName, .c2i, .levels []⟩

end Sys2Proof.Machine
end

