-- ==== Sys2Proof/Machine/C2i.lean ====
section
/-! DEFINITION. The meaning of C2I (40_c2i_decode.md R53). -/

namespace Sys2Proof.Machine

/-- C2I on every operand: `dec_value` is driven with the decoded integer; no flag, no exception (R53, R44, R100). -/
def execC2i (compact : CompactWord) (s : State) : Host.Outcome State Fault Refusal := .next (s.driveC2i compact)

end Sys2Proof.Machine
end

