-- ==== Sys2Proof/Machine/I2c.lean ====
section
/-! DEFINITION. The meaning of I2C (41_i2c_encode.md R67). -/

namespace Sys2Proof.Machine

/-- I2C on every operand: `enc_compact` and `enc_ovf` are driven; no exception, the overflow operand included (R67, R45,
R101, R109). -/
def execI2c (value : ValueWord) (s : State) : Host.Outcome State Fault Refusal := .next (s.driveI2c value)

end Sys2Proof.Machine
end

