-- ==== Sys2Proof/Machine/Dispatch.lean ====
section
/-! DEFINITION. One arm per operation. -/

namespace Sys2Proof.Machine

def exec (i : Instr) (s : State) : Host.Outcome State Fault Refusal :=
  match i with
  | .c2i compact => Sys2Proof.Machine.execC2i compact s
  | .i2c value => Sys2Proof.Machine.execI2c value s

end Sys2Proof.Machine
end

