-- ==== Sys2Proof/Machine/Step.lean ====
section
/-! DEFINITION. One step: the next action of the host's script. One evaluation is one atomic step (00_scope.md R9;
92_eei_decisions.md D16). -/

namespace Sys2Proof.Machine

/-- With no action left the block idles: held inputs keep their outputs (10_state.md R11; log 6). A line is fetched,
run by `exec`, and its outputs are settled, sampled and bound (R51). A release leaves the unit's outputs unspecified
(70_reset_and_hazards.md R116). -/
def step (s : State) : Host.Outcome State Fault Refusal :=
  match s.script with
  | [] => .next s.settle
  | .release op :: rest => .next ({ s with script := rest }.release op).settle
  | .eval l :: rest =>
    match s.fetch l with
    | .error r => .refused r
    | .ok i => finishLine l (exec i { s with script := rest })

/-- `s` with the evaluation of a word of `nbits` bits as the host's next action: how a program comes to run (log 6). -/
def State.withFetchWord (s : State) (nbits w : Nat) : State :=
  { s with script := .eval (s.lineOfWord nbits w) :: s.script }

end Sys2Proof.Machine
end

