-- ==== Sys2Proof/Machine/Datapath.lean ====
section
/-! DEFINITION. The block's parts at the widths of 42_codec_laws.md R120, as the spec describes their structure:
field extract, staged barrel shifter and sign-extend mux of C2I (40_c2i_decode.md R54, R59, R61); sign and absolute
value, priority byte detector, byte window, renormalising shifter, field pack and sign encode of I2C (41_i2c_encode.md
R68, R70, R73, R77, R79 to R81). The spec calls the structure informative (D13), so no step uses this file: it is the
second design that the stepwise functions of Machine/Codec.lean are compared with; log 12. -/

namespace Sys2Proof.Machine

/-- C2I's right path: one of `word[22:0]`, `word[22:8]`, `word[22:16]`, 0 by `size[1:0]` (40_c2i_decode.md R59). -/
def barrelRight (size : BitVec 8) (word : BitVec 23) : BitVec 2039 :=
  match size.getLsbD 1, size.getLsbD 0 with
  | true, true => word.setWidth 2039
  | true, false => (word.extractLsb' 8 15).setWidth 2039
  | false, true => (word.extractLsb' 16 7).setWidth 2039
  | false, false => 0#2039

/-- Stage `j` of C2I's left path: left by `8 × 2^j` bits when `k[j] = 1` (40_c2i_decode.md R59). -/
def barrelStage (k : BitVec 8) (j : Nat) (m : BitVec 2039) : BitVec 2039 :=
  if k.getLsbD j then m <<< (8 * 2 ^ j) else m

/-- C2I's left path: the first `n` stages, stage 0 first, with `k = size − 3` (40_c2i_decode.md R59). -/
def barrelStages (k : BitVec 8) (m : BitVec 2039) : Nat → BitVec 2039
  | 0 => m
  | n + 1 => barrelStage k n (barrelStages k m n)

/-- C2I's barrel shifter: the right path when `size ≤ 3`, else the eight stages of the left path (40_c2i_decode.md R59). -/
def barrelShifter (size : BitVec 8) (word : BitVec 23) : BitVec 2039 :=
  if size ≤ 3#8 then barrelRight size word
  else barrelStages (size - 3#8) (word.setWidth 2039) 8

/-- C2I's sign-extend mux: `zext_2040(mag)` or `(~zext_2040(mag) + 1) mod 2^2040` (40_c2i_decode.md R61). -/
def signExtendMux (negative : Bool) (mag : BitVec 2039) : ValueWord :=
  if negative then ~~~(mag.setWidth 2040) + 1#2040 else mag.setWidth 2040

/-- C2I as a datapath. -/
def c2iDatapath (c : CompactWord) : ValueWord :=
  signExtendMux (c2iNegative c) (barrelShifter (sizeField c) (mantissaField c))

/-- I2C's absolute value, as an unsigned 2040-bit word (41_i2c_encode.md R68). -/
def absoluteValue (w : ValueWord) : ValueWord := if w.getLsbD 2039 then ~~~w + 1#2040 else w

/-- I2C's priority detector over the lowest `n` bytes: 0 if they are all zero, else one more than the highest non-zero
byte's number (41_i2c_encode.md R70). -/
def byteDetect (v : ValueWord) : Nat → Nat
  | 0 => 0
  | n + 1 => if byteOf v n = 0#8 then byteDetect v n else n + 1

/-- `B(size − j)`: a byte of `v`, and 0 below byte 0 (41_i2c_encode.md R73). -/
def windowByte (v : ValueWord) (size j : Nat) : BitVec 8 := if j ≤ size then byteOf v (size - j) else 0#8

/-- I2C's byte window `{ B(size − 1), B(size − 2), B(size − 3) }` (41_i2c_encode.md R73). -/
def byteWindow (v : ValueWord) (size : Nat) : BitVec 24 :=
  windowByte v size 1 ++ windowByte v size 2 ++ windowByte v size 3

/-- I2C's renormalising shifter on the mantissa: `m24[23:8]` when bit 23 is set (41_i2c_encode.md R77). -/
def renormMantissa (m24 : BitVec 24) : BitVec 23 :=
  if m24.getLsbD 23 then (m24.extractLsb' 8 16).setWidth 23 else m24.extractLsb' 0 23

/-- I2C's 9-bit final size (41_i2c_encode.md R77, R78). -/
def renormSize (m24 : BitVec 24) (size : BitVec 9) : BitVec 9 := if m24.getLsbD 23 then size + 1#9 else size

/-- I2C as a datapath: `enc_compact` and `enc_ovf`. The exponent field is `sizef[7:0]` (41_i2c_encode.md R81). -/
def i2cDatapath (w : ValueWord) : CompactWord × Bool :=
  let v := absoluteValue w
  let size := byteDetect v 255
  let m24 := byteWindow v size
  let sizef := renormSize m24 (BitVec.ofNat 9 size)
  let mant := renormMantissa m24
  (packCompact (sizef.setWidth 8) (w.getLsbD 2039 && mant != 0#23) mant, sizef.getLsbD 8)

end Sys2Proof.Machine
end

