-- ==== Sys2Proof/Machine/ClosedForm.lean ====
section
/-! DEFINITION. The closed forms of the two units and the vocabulary of their laws, written apart from the stepwise
functions of Machine/Codec.lean: 40_c2i_decode.md R66, 41_i2c_encode.md R84, 42_codec_laws.md. -/

namespace Sys2Proof.Machine

/-- `MAG(c)` (40_c2i_decode.md R66). -/
def MAG (c : Nat) : Nat :=
  let size := c / 2 ^ 24
  let word := c % 2 ^ 23
  if size ≤ 3 then word / 256 ^ (3 - size) else word * 256 ^ (size - 3)

/-- `DEC(c)` (40_c2i_decode.md R66). -/
def DEC (c : Nat) : Int :=
  if c / 2 ^ 23 % 2 = 1 ∧ c % 2 ^ 23 ≠ 0 then -(MAG c : Int) else MAG c

/-- `SF(v)`, the final size (41_i2c_encode.md R84). -/
def SF (v : Nat) : Nat := if v = 0 then 0 else bitLength v / 8 + 1

/-- `MF(v)`, the final mantissa (41_i2c_encode.md R84). -/
def MF (v : Nat) : Nat := if SF v ≤ 3 then v * 256 ^ (3 - SF v) else v / 256 ^ (SF v - 3)

/-- `ENC(x)` (41_i2c_encode.md R84). Its `SF(v) mod 256` rests on decision D5 for the overflow operand (log 4). -/
def ENC (x : Int) : Nat :=
  SF x.natAbs % 256 * 2 ^ 24 + (if x < 0 then 2 ^ 23 else 0) + MF x.natAbs

/-- `OVF(x)` (41_i2c_encode.md R84). -/
def OVF (x : Int) : Bool := decide (SF x.natAbs = 256)

/-- `T(x) = DEC(ENC(x))`, the round trip through the compact format (42_codec_laws.md, Notation). -/
def roundTrip (x : Int) : Int := DEC (ENC x)

/-- The value range VR of the ports: −2^2039 to 2^2039 − 1 (42_codec_laws.md, Notation). -/
def InVR (x : Int) : Prop := -2 ^ 2039 ≤ x ∧ x < 2 ^ 2039

/-- The field conditions of a canonical compact word (42_codec_laws.md R92). -/
def canonical (c : CompactWord) : Bool :=
  let size := (sizeField c).toNat
  let word := (mantissaField c).toNat
  c == 0#32 ||
    (decide (0x008000 ≤ word) && decide (1 ≤ size) &&
      (size != 1 || word % 2 ^ 16 == 0) && (size != 2 || word % 2 ^ 8 == 0))

end Sys2Proof.Machine
end

