-- ==== Sys2Proof/WellFormed.lean ====
section
/-! DEFINITION. When a script is one the spec gives a meaning to (30_encoding.md R51; 93_implementation_defined.md U2,
U8; 70_reset_and_hazards.md R116). An `Instr` needs no check: every word of a port is legal (R44, R45) and its type
says that it is a word. -/

namespace Sys2Proof

open Sys2Proof.Machine

/-- A name a script has bound so far, with the operation that bound it. -/
abbrev Known := List (Name × Op)

/-- The operand check of a line. A literal lies in the port's range (U2), pins are a binary word of the port (R116), a
name is bound already (U8). An I2C operand may be any bound name; a C2I operand is a name an I2C line bound, whose
integer is always in range (R51). The last check is static: a name a C2I line bound may happen to hold an integer in
C2I's range, and the step then runs it, but no check before the run can tell; log 8. -/
def Operand.wf (known : Known) (op : Op) : Operand → Bool
  | .literal x => inPortRange op x
  | .levels pins => (levelsWord op pins).isSome
  | .name n =>
    match op with
    | .i2c => (known.lookup n).isSome
    | .c2i => known.lookup n == some .i2c

/-- A line binds a new name from names already bound (U8). -/
def Line.wf (known : Known) (l : Line) : Bool := (known.lookup l.name).isNone && l.operand.wf known l.op

/-- Every line of the script is well formed after the ones before it. -/
def scriptWf (known : Known) : List HostAction → Bool
  | [] => true
  | .eval l :: rest => l.wf known && scriptWf ((l.name, l.op) :: known) rest
  | .release _ :: rest => scriptWf known rest

end Sys2Proof
end

