-- ==== Sys2Proof/Safety.lean ====
section
/-! DEFINITION. What a good state is: outputs follow inputs, bindings are results of evaluations, names are bound once. -/

namespace Sys2Proof.Machine

/-- The outputs of the instruction's unit are the same in both states (20_memory.md R32). -/
def SameResult (i : Instr) (t u : State) : Prop :=
  match i with
  | .c2i _ => t.decValue = u.decValue
  | .i2c _ => t.encCompact = u.encCompact ∧ t.encOvf = u.encOvf

/-- Every output of a unit with a held input is the function of that input (10_state.md R11; 40_c2i_decode.md R62;
41_i2c_encode.md R82). Nothing is said of a unit whose input is not a held binary word (70_reset_and_hazards.md R111). -/
def State.OutputsFollowInputs (s : State) : Prop :=
  (∀ c, s.decCompact = .held c → s.decValue = c2iValue c) ∧
  (∀ w, s.encValue = .held w → s.encCompact = i2cCompact w ∧ s.encOvf = i2cOvf w)

/-- A binding is what an evaluation gives: a C2I line's integer is a C2I result, an I2C line's integer and overflow are
I2C's outputs for one operand (30_encoding.md R51). -/
def BindingIsResult (b : Binding) : Prop :=
  match b.ovf with
  | none => ∃ c : CompactWord, b.value = sint (c2iValue c)
  | some o => ∃ w : ValueWord, b.value = (i2cCompact w).toNat ∧ o = i2cOvf w

/-- Every binding is a result, and no name is bound twice (93_implementation_defined.md U8). -/
def State.BindingsAreResults (s : State) : Prop :=
  (∀ b ∈ s.bindings, BindingIsResult b) ∧ (s.bindings.map (·.name)).Nodup

/-- The invariant of the machine. -/
def State.Inv (s : State) : Prop := s.OutputsFollowInputs ∧ s.BindingsAreResults

/-- The names bound in a state, each with the operation that bound it: what `scriptWf` starts from. -/
def State.known (s : State) : Known :=
  s.bindings.map fun b => (b.name, if b.ovf.isSome then Op.i2c else Op.c2i)

end Sys2Proof.Machine
end

