-- ==== Sys2Proof/Certificates/Slice0/Obligations.lean ====
section
/-! DEFINITION. The statements for the provers, from the spec's numbered rules. `expect` is holds for all of them. -/

open Sys2Proof Sys2Proof.Machine

/-! ### Encodings and formats -/

/-- Words written out from the spec's layouts: an operand word presented to a unit decodes to that unit's evaluation
(30_encoding.md R46; 95_test_vectors.md section 3), and the fields of 0x05923456 stand where 30_encoding.md R37 puts
them. -/
def Obligations.WrittenOutWordsDecode : Prop :=
  decode 0 0b00000101000100100011010001010110 = .ok (.c2i 0x05123456#32) ∧
  decode 0 0b11111111111111111111111111111111 = .ok (.c2i 0xFFFFFFFF#32) ∧
  decode 1 0x1234560000 = .ok (.i2c (tc 0x1234560000)) ∧
  decode 1 (2 ^ 2040 - 0x92345678) = .ok (.i2c (tc (-0x92345678))) ∧
  decode 2 0 = .error (.noSuchUnit 2) ∧
  sizeField 0b00000101100100100011010001010110#32 = 0b00000101#8 ∧
  signBit 0b00000101100100100011010001010110#32 = true ∧
  mantissaField 0b00000101100100100011010001010110#32 = 0b00100100011010001010110#23

/-- Decode and encode agree in both directions: every evaluation, with its operand at every value of its port, and every
pair the decoder accepts (30_encoding.md R46; 95_test_vectors.md section 3). -/
def Obligations.DecodeInvertsEncode : Prop :=
  (∀ i : Instr, decode (encode i).1 (encode i).2 = .ok i) ∧
  (∀ unit word i, decode unit word = .ok i → encode i = (unit, word))

/-- The decoder accepts all 2^32 words for unit 0, all 2^2040 words for unit 1, and nothing else (10_state.md R22;
30_encoding.md R44, R45, R121). -/
def Obligations.DecodeAcceptsExactlyThePortWords : Prop :=
  ∀ unit word, (∃ i, decode unit word = .ok i) ↔ (unit = 0 ∧ word < 2 ^ 32) ∨ (unit = 1 ∧ word < 2 ^ 2040)

/-- The three fields partition the compact word: extraction as in 30_encoding.md R41, packing as in R42, each the
inverse of the other. -/
def Obligations.FieldsPartitionTheCompactWord : Prop :=
  (∀ c : CompactWord,
    (sizeField c).toNat = c.toNat / 2 ^ 24 ∧
    (signBit c = true ↔ c &&& 0x00800000#32 ≠ 0#32) ∧
    (mantissaField c).toNat = (c &&& 0x007FFFFF#32).toNat ∧
    packCompact (sizeField c) (signBit c) (mantissaField c) = c) ∧
  (∀ (s : BitVec 8) (g : Bool) (m : BitVec 23),
    (packCompact s g m).toNat = s.toNat * 2 ^ 24 + g.toNat * 2 ^ 23 + m.toNat ∧
    (packCompact s g m).toNat = (s.toNat <<< 24) ||| (g.toNat <<< 23) ||| m.toNat ∧
    sizeField (packCompact s g m) = s ∧ signBit (packCompact s g m) = g ∧ mantissaField (packCompact s g m) = m)

/-! ### C2I -/

/-- 40_c2i_decode.md R53, its pseudocode with masks and shifts of the whole word: for every operand and every state C2I
completes, drives `dec_value` and changes nothing but its own two ports. -/
def Obligations.C2iDrivesTheDecodedInteger : Prop :=
  ∀ (c : CompactWord) (s : State),
    let size := c.toNat >>> 24
    let word := c.toNat &&& 0x007FFFFF
    let mag : Int := (if size ≤ 3 then word >>> (8 * (3 - size)) else word <<< (8 * (size - 3)) : Nat)
    let result := if word ≠ 0 ∧ c.toNat &&& 0x00800000 ≠ 0 then -mag else mag
    exec (.c2i c) s = .next { s with decCompact := .held c, decValue := tc result }

/-- 40_c2i_decode.md R55: the sign predicate tests the unshifted mantissa field, so it can hold while the magnitude is
0. That `dec_value` is then all zeros is the spec's derivation (40_c2i_decode.md R63, 30_encoding.md R49, both marked
derived there). -/
def Obligations.SignPredicateReadsTheUnshiftedMantissa : Prop :=
  (∀ c : CompactWord, c2iNegative c = true ↔ c &&& 0x007FFFFF#32 ≠ 0#32 ∧ c &&& 0x00800000#32 ≠ 0#32) ∧
  (∀ c : CompactWord, c2iMagnitude (sizeField c).toNat (mantissaField c).toNat = 0 → c2iValue c = 0#2040) ∧
  c2iNegative 0x00800001#32 = true ∧ c2iMagnitude (sizeField 0x00800001#32).toNat (mantissaField 0x00800001#32).toNat = 0

/-- 40_c2i_decode.md R57: the right-shift branch, size by size, on the magnitude that `dec_value` stands for. -/
def Obligations.C2iRightShiftBranch : Prop :=
  ∀ c : CompactWord,
    ((sizeField c).toNat = 3 → (sint (c2iValue c)).natAbs = (mantissaField c).toNat) ∧
    ((sizeField c).toNat = 2 → (sint (c2iValue c)).natAbs = ((mantissaField c).extractLsb' 8 15).toNat) ∧
    ((sizeField c).toNat = 1 → (sint (c2iValue c)).natAbs = ((mantissaField c).extractLsb' 16 7).toNat) ∧
    ((sizeField c).toNat = 0 → c2iValue c = 0#2040)

/-- 40_c2i_decode.md R58: the left-shift branch. The magnitude is the mantissa times a power of 256, every bit of the
mantissa stands in it, the bits below are zero, and the largest shift is 2016 bits, at size 255. -/
def Obligations.C2iLeftShiftBranchKeepsEveryBit : Prop :=
  ∀ c : CompactWord, 3 < (sizeField c).toNat →
    let k := (sizeField c).toNat - 3
    let mag := (sint (c2iValue c)).natAbs
    8 * k ≤ 2016 ∧
    ((sizeField c).toNat = 255 → 8 * k = 2016) ∧
    mag = (mantissaField c).toNat * 256 ^ k ∧
    (∀ i, i < 23 → mag.testBit (8 * k + i) = (mantissaField c).getLsbD i) ∧
    (∀ i, i < 8 * k → mag.testBit i = false)

/-- 40_c2i_decode.md R65: for sizes above 3 the low bits of the port are zero for both signs, because negation keeps
trailing zeros; and nothing caps a magnitude of more than 256 bits. -/
def Obligations.C2iPortKeepsTrailingZeros : Prop :=
  (∀ c : CompactWord, 3 < (sizeField c).toNat → ∀ i, i < 8 * ((sizeField c).toNat - 3) → (c2iValue c).getLsbD i = false) ∧
  c2iValue 0xFF000001#32 = tc (2 ^ 2016)

/-- 40_c2i_decode.md R60: the port holds every C2I result exactly, and the bound is reached. -/
def Obligations.C2iResultFitsThePort : Prop :=
  (∀ c : CompactWord, sint (c2iValue c) = c2iResult c ∧ (c2iResult c).natAbs ≤ 2 ^ 2039 - 2 ^ 2016) ∧
  c2iResult 0xFF7FFFFF#32 = 2 ^ 2039 - 2 ^ 2016

/-- 40_c2i_decode.md R61 on the port: zero extension of the magnitude, or its two's complement, which is 1 in every bit
above the magnitude. -/
def Obligations.C2iSignExtendsTheMagnitude : Prop :=
  ∀ c : CompactWord,
    let mag := c2iMagnitude (sizeField c).toNat (mantissaField c).toNat
    (c2iNegative c = false → c2iValue c = BitVec.ofNat 2040 mag ∧ (c2iValue c).getLsbD 2039 = false) ∧
    (c2iNegative c = true → c2iValue c = ~~~(BitVec.ofNat 2040 mag) + 1#2040) ∧
    (c2iNegative c = true → mag ≠ 0 → ∀ i, bitLength mag ≤ i → i < 2040 → (c2iValue c).getLsbD i = true)

/-- 40_c2i_decode.md R64: a zero mantissa field decodes to zero, whatever size and sign bit are. -/
def Obligations.C2iZeroMantissaGivesZero : Prop :=
  ∀ (c : CompactWord) (s : State), mantissaField c = 0#23 →
    exec (.c2i c) s = .next { s with decCompact := .held c, decValue := 0#2040 }

/-- 42_codec_laws.md R87 and 40_c2i_decode.md R63: the sign of a C2I result, and exactly when it is zero. -/
def Obligations.C2iSignOfTheResult : Prop :=
  ∀ c : CompactWord,
    (sint (c2iValue c) < 0 ↔ signBit c = true ∧ MAG c.toNat ≠ 0) ∧
    (0 < sint (c2iValue c) ↔ signBit c = false ∧ MAG c.toNat ≠ 0) ∧
    (c2iValue c = 0#2040 ↔ MAG c.toNat = 0) ∧
    (c2iValue c = 0#2040 ↔
      mantissaField c = 0#23 ∨ sizeField c = 0#8 ∨
      (sizeField c = 1#8 ∧ (mantissaField c).toNat < 0x010000) ∨
      (sizeField c = 2#8 ∧ (mantissaField c).toNat < 0x000100))

/-- 40_c2i_decode.md R66: the unit is its closed form, for every compact word. -/
def Obligations.C2iIsItsClosedForm : Prop := ∀ c : CompactWord, sint (c2iValue c) = DEC c.toNat

/-- 40_c2i_decode.md R66, last sentence: flipping the sign bit negates the result. -/
def Obligations.FlippingTheSignBitNegates : Prop :=
  ∀ c : CompactWord, sint (c2iValue (c ^^^ 0x00800000#32)) = -sint (c2iValue c)

/-- 40_c2i_decode.md R59 and R61: field extract, the eight-stage barrel shifter at 2039 bits and the sign-extend mux
drive what the pseudocode says. -/
def Obligations.C2iDatapathMeetsThePseudocode : Prop := ∀ c : CompactWord, c2iDatapath c = c2iValue c

/-! ### I2C -/

/-- 41_i2c_encode.md R67, its pseudocode as arithmetic on the whole word: for every operand and every state I2C
completes, drives `enc_compact` and `enc_ovf` and changes nothing but its own three ports. The rule covers the operand
−2^2039 too; its exponent field rests on the spec's decision D5 (log 4). -/
def Obligations.I2cDrivesTheEncodedWord : Prop :=
  ∀ (w : ValueWord) (s : State),
    let x := sint w
    let v := x.natAbs
    let size := (bitLength v + 7) / 8
    let m24 := if size ≤ 3 then v * 2 ^ (8 * (3 - size)) else v / 2 ^ (8 * (size - 3))
    let mant := if m24 / 2 ^ 23 % 2 = 1 then m24 / 2 ^ 8 else m24
    let sizef := if m24 / 2 ^ 23 % 2 = 1 then size + 1 else size
    let m23 := mant % 2 ^ 23
    let g := if x < 0 ∧ m23 ≠ 0 then 1 else 0
    exec (.i2c w) s = .next { s with
      encValue := .held w
      encCompact := BitVec.ofNat 32 (sizef % 256 * 2 ^ 24 + g * 2 ^ 23 + m23)
      encOvf := decide (sizef / 256 % 2 = 1) }

/-- 41_i2c_encode.md R78 and R81, 10_state.md R14: `enc_ovf` is 1 for −2^2039 alone. The word driven there is the spec's
decision D5 (log 4), not the source's: this statement rests on it for that operand. -/
def Obligations.I2cOverflowsOnTheLeastOperandOnly : Prop :=
  (∀ w : ValueWord, i2cOvf w = true ↔ sint w = -2 ^ 2039) ∧
  (∀ s : State, exec (.i2c (tc (-2 ^ 2039))) s =
    .next { s with encValue := .held (tc (-2 ^ 2039)), encCompact := 0x00808000#32, encOvf := true })

/-- 41_i2c_encode.md R69: the byte length of the unsigned magnitude, and its range on the port. -/
def Obligations.ByteLengthOfTheMagnitude : Prop :=
  (∀ v : Nat, v ≠ 0 →
    1 ≤ byteLen v ∧ 8 * (byteLen v - 1) < bitLength v ∧ bitLength v ≤ 8 * byteLen v ∧
    256 ^ (byteLen v - 1) ≤ v ∧ v < 256 ^ byteLen v) ∧
  bitLength 0 = 0 ∧ byteLen 0 = 0 ∧
  (∀ w : ValueWord, byteLen (sint w).natAbs ≤ 255 ∧ (256 ^ 254 ≤ (sint w).natAbs → byteLen (sint w).natAbs = 255))

/-- 41_i2c_encode.md R68 and R70: the absolute value is exact as an unsigned 2040-bit word, and the priority detector
over its 255 bytes finds its byte length. -/
def Obligations.PriorityDetectorFindsTheByteLength : Prop :=
  ∀ w : ValueWord,
    (absoluteValue w).toNat = (sint w).natAbs ∧
    (w.getLsbD 2039 = true ↔ sint w < 0) ∧
    byteDetect (absoluteValue w) 255 = byteLen (sint w).natAbs

/-- 41_i2c_encode.md R74, R75, R78 and R79: the ranges of the intermediate, the final size and the mantissa field, for
every operand. -/
def Obligations.I2cIntermediateRanges : Prop :=
  ∀ w : ValueWord,
    let v := (sint w).natAbs
    i2cWindow v < 2 ^ 24 ∧
    (i2cWindow v = 0 ↔ w = 0#2040) ∧
    (v ≠ 0 → 0x010000 ≤ i2cWindow v) ∧
    i2cMantissaField v = i2cMantissa v ∧
    (v ≠ 0 → 0x008000 ≤ i2cMantissaField v ∧ i2cMantissaField v ≤ 0x7FFFFF) ∧
    i2cSize v = (if v = 0 then 0 else bitLength v / 8 + 1) ∧
    i2cSize v ≤ 256

/-- 41_i2c_encode.md R77: renormalising, when it happens and what it does. -/
def Obligations.I2cRenormalisesOnTheTopBit : Prop :=
  ∀ v : Nat,
    (0x800000 ≤ i2cWindow v →
      i2cMantissa v = i2cWindow v / 256 ∧ i2cSize v = byteLen v + 1 ∧
      0x008000 ≤ i2cMantissa v ∧ i2cMantissa v ≤ 0x00FFFF) ∧
    (i2cWindow v < 0x800000 → i2cMantissa v = i2cWindow v ∧ i2cSize v = byteLen v) ∧
    (0x800000 ≤ i2cWindow v ↔ v ≠ 0 ∧ 0x80 ≤ v / 256 ^ (byteLen v - 1)) ∧
    i2cMantissa v < 2 ^ 23

/-- 41_i2c_encode.md R80: the sign bit of the result is the operand's sign, and a zero mantissa never gets one. -/
def Obligations.I2cSignBitIsTheOperandSign : Prop :=
  ∀ w : ValueWord,
    signBit (i2cCompact w) = w.getLsbD 2039 ∧
    (mantissaField (i2cCompact w) = 0#23 → signBit (i2cCompact w) = false) ∧
    (mantissaField (i2cCompact w) = 0#23 ↔ w = 0#2040)

/-- 41_i2c_encode.md R84: the unit is its closed form, for every operand; the word is claimed where `enc_ovf` = 0, as
93_implementation_defined.md U1 asks. -/
def Obligations.I2cIsItsClosedForm : Prop :=
  ∀ x : Int, InVR x → i2cOvf (tc x) = OVF x ∧ (OVF x = false → (i2cCompact (tc x)).toNat = ENC x)

/-- 41_i2c_encode.md R68, R70, R73, R77, R79 to R81: absolute value, priority detector, byte window, renormalising
shifter, field pack and sign encode at their hardware widths drive what the pseudocode says. For the operand −2^2039
both designs rest on decision D5 (log 4). -/
def Obligations.I2cDatapathMeetsThePseudocode : Prop :=
  ∀ w : ValueWord, i2cDatapath w = (i2cCompact w, i2cOvf w)

/-! ### Laws of the two units -/

/-- 42_codec_laws.md R91: negating the operand changes the sign bit and nothing else, and the round trip is odd. -/
def Obligations.NegationChangesOnlyTheSignBit : Prop :=
  ∀ x : Int, InVR x → InVR (-x) → x ≠ 0 →
    i2cCompact (tc (-x)) = i2cCompact (tc x) ^^^ 0x00800000#32 ∧
    sint (c2iValue (i2cCompact (tc (-x)))) = -sint (c2iValue (i2cCompact (tc x)))

/-- 42_codec_laws.md R90: C2I of I2C clears the low `8 × max(0, SF − 3)` bits of the magnitude and keeps the sign; so it
truncates toward zero, is exact exactly when those bits are zero, and is idempotent. -/
def Obligations.RoundTripTruncatesTowardZero : Prop :=
  ∀ w : ValueWord, i2cOvf w = false →
    let v := (sint w).natAbs
    let k := SF v - 3
    let t := c2iValue (i2cCompact w)
    sint t = (sint w).sign * ((v - v % 256 ^ k : Nat) : Int) ∧
    (t = w ↔ v % 256 ^ k = 0) ∧
    c2iValue (i2cCompact t) = t

/-- 42_codec_laws.md R88: the round trip is exact up to 23 bits, and clears the low byte of a 24-bit magnitude
(90_conflicts.md C2). -/
def Obligations.LosslessUpTo23Bits : Prop :=
  ∀ x : Int,
    (x.natAbs ≤ 0x7FFFFF → sint (c2iValue (i2cCompact (tc x))) = x) ∧
    (0x800000 ≤ x.natAbs → x.natAbs ≤ 0xFFFFFF →
      sint (c2iValue (i2cCompact (tc x))) = x.sign * ((x.natAbs - x.natAbs % 256 : Nat) : Int))

/-- 42_codec_laws.md R92: the words I2C can produce without overflow are exactly those that meet the field
conditions. -/
def Obligations.CanonicalWordsAreTheEncodersRange : Prop :=
  ∀ c : CompactWord, canonical c = true ↔ ∃ w : ValueWord, i2cOvf w = false ∧ i2cCompact w = c

/-- 42_codec_laws.md R93 and R97: I2C after C2I never overflows, gives a canonical word of the same value, and gives the
word itself exactly when it is canonical. -/
def Obligations.ReencodingCanonicalises : Prop :=
  ∀ c : CompactWord,
    i2cOvf (c2iValue c) = false ∧
    canonical (i2cCompact (c2iValue c)) = true ∧
    c2iValue (i2cCompact (c2iValue c)) = c2iValue c ∧
    (i2cCompact (c2iValue c) = c ↔ canonical c = true)

/-- 42_codec_laws.md R94: between the canonical words and the fixed points of the round trip, each unit is the inverse of
the other (`I2C (C2I c) = c` on the first; on the second, I2C gives a canonical word and C2I gives the operand back); the
fixed points are C2I's range; on canonical words C2I is injective; neither unit is injective on its whole domain. -/
def Obligations.UnitsAreInverseOnCanonicalWords : Prop :=
  (∀ c : CompactWord, canonical c = true → i2cCompact (c2iValue c) = c) ∧
  (∀ w : ValueWord, c2iValue (i2cCompact w) = w → canonical (i2cCompact w) = true) ∧
  (∀ w : ValueWord, (∃ c, c2iValue c = w) ↔ c2iValue (i2cCompact w) = w) ∧
  (∀ c d : CompactWord, canonical c = true → canonical d = true → c2iValue c = c2iValue d → c = d) ∧
  (∃ c d : CompactWord, c ≠ d ∧ c2iValue c = c2iValue d) ∧
  (∃ v w : ValueWord, i2cOvf v = false ∧ i2cOvf w = false ∧ v ≠ w ∧ i2cCompact v = i2cCompact w)

/-- 42_codec_laws.md R99: every operand but the overflow one keeps its byte length through the round trip. The last
clause rests on decision D5 (log 4). -/
def Obligations.RoundTripKeepsTheByteLength : Prop :=
  (∀ w : ValueWord, i2cOvf w = false →
    byteLen (sint (c2iValue (i2cCompact w))).natAbs = byteLen (sint w).natAbs) ∧
  c2iValue (i2cCompact (tc (-2 ^ 2039))) = 0#2040

/-- 42_codec_laws.md R98: on non-negative operands I2C is monotone, compact words compared as unsigned numbers, and so
is the round trip. -/
def Obligations.EncodingIsMonotone : Prop :=
  ∀ x y : Int, 0 ≤ x → x ≤ y → y < 2 ^ 2039 →
    (i2cCompact (tc x)).toNat ≤ (i2cCompact (tc y)).toNat ∧
    sint (c2iValue (i2cCompact (tc x))) ≤ sint (c2iValue (i2cCompact (tc y)))

/-! ### The machine -/

/-- The source's examples (95_test_vectors.md section 1.1, S1 to S6x, corrected as in 90_conflicts.md C1), each run by
its unit from every state. -/
def Obligations.SourceExamplesRun : Prop :=
  ∀ s : State,
    exec (.c2i 0x00000000#32) s = .next { s with decCompact := .held 0x00000000#32, decValue := tc 0 } ∧
    exec (.c2i 0x05123456#32) s = .next { s with decCompact := .held 0x05123456#32, decValue := tc 0x1234560000 } ∧
    exec (.c2i 0x0600C0DE#32) s = .next { s with decCompact := .held 0x0600C0DE#32, decValue := tc 0xC0DE000000 } ∧
    exec (.c2i 0x05923456#32) s = .next { s with decCompact := .held 0x05923456#32, decValue := tc (-0x1234560000) } ∧
    exec (.c2i 0x85123456#32) s =
      .next { s with decCompact := .held 0x85123456#32, decValue := tc (0x123456 * 256 ^ 130) } ∧
    exec (.i2c (tc 0)) s = .next { s with encValue := .held (tc 0), encCompact := 0x00000000#32, encOvf := false } ∧
    exec (.i2c (tc 0x1234560000)) s =
      .next { s with encValue := .held (tc 0x1234560000), encCompact := 0x05123456#32, encOvf := false } ∧
    exec (.i2c (tc 0xC0DE000000)) s =
      .next { s with encValue := .held (tc 0xC0DE000000), encCompact := 0x0600C0DE#32, encOvf := false } ∧
    exec (.i2c (tc (-0x1234560000))) s =
      .next { s with encValue := .held (tc (-0x1234560000)), encCompact := 0x05923456#32, encOvf := false }

/-- 60_exceptions.md R100: neither operation can fail. Every evaluation, from every state, answers a next state, and
there is no fault to name. -/
def Obligations.NeitherOperationCanFail : Prop :=
  (∀ (i : Instr) (s : State), ∃ t, exec i s = .next t) ∧ (∀ _f : Fault, False)

/-- 10_state.md R24: the two port groups are disjoint. An evaluation of one unit leaves every port of the other, the
script, the bindings and the free index as they were, and its own outputs are the same from any two states, whatever is
on the other unit's ports. -/
def Obligations.UnitsShareNoPort : Prop :=
  (∀ (c : CompactWord) (s s' : State), ∃ t t',
    exec (.c2i c) s = .next t ∧ exec (.c2i c) s' = .next t' ∧
    t.encValue = s.encValue ∧ t.encCompact = s.encCompact ∧ t.encOvf = s.encOvf ∧
    t.script = s.script ∧ t.bindings = s.bindings ∧ t.freeIdx = s.freeIdx ∧
    t.decValue = t'.decValue) ∧
  (∀ (w : ValueWord) (s s' : State), ∃ t t',
    exec (.i2c w) s = .next t ∧ exec (.i2c w) s' = .next t' ∧
    t.decCompact = s.decCompact ∧ t.decValue = s.decValue ∧
    t.script = s.script ∧ t.bindings = s.bindings ∧ t.freeIdx = s.freeIdx ∧
    t.encCompact = t'.encCompact ∧ t.encOvf = t'.encOvf)

/-- 20_memory.md R32: (a) an evaluation's result is the same from any two states; (b) two evaluations, of one unit or of
both, give the same results in either order, and those of different units leave the same state; (c) repeating an
evaluation changes nothing. -/
def Obligations.EvaluationsCommuteAndRepeat : Prop :=
  (∀ (i : Instr) (s s' : State), ∃ t t', exec i s = .next t ∧ exec i s' = .next t' ∧ SameResult i t t') ∧
  (∀ (i j : Instr) (s : State), ∃ t u t' u',
    exec i s = .next t ∧ exec j t = .next u ∧ exec j s = .next t' ∧ exec i t' = .next u' ∧
    SameResult i t u' ∧ SameResult j u t') ∧
  (∀ (c : CompactWord) (w : ValueWord) (s : State), ∃ t u v,
    exec (.c2i c) s = .next t ∧ exec (.i2c w) t = .next v ∧
    exec (.i2c w) s = .next u ∧ exec (.c2i c) u = .next v) ∧
  (∀ (i : Instr) (s : State), ∃ t, exec i s = .next t ∧ exec i t = .next t)

/-- A step runs the decoded instruction (00_scope.md R9; 92_eei_decisions.md D16): when the next line's name is new and
the port word of its operand decodes to `i`, the step is `exec i`, after which the outputs settle and the line's name is
bound to them. Settling and binding are the model's reading of 10_state.md R11 and 30_encoding.md R51 (log 1, log 3). -/
def Obligations.StepRunsTheDecodedInstruction : Prop :=
  ∀ (s : State) (l : Line) (rest : List HostAction) (word : Nat) (i : Instr),
    s.script = .eval l :: rest → s.lookup l.name = none →
    s.operandWord l = .ok word → decode (unitIndex l.op) word = .ok i →
    ∃ t, exec i { s with script := rest } = .next t ∧ step s = .next (t.settle.bindResult l)

/-- 30_encoding.md R51, `name = C2I literal`: the name is bound to the decoded integer and to no flag, and no other
binding changes. Names and bindings are the model's (log 1). -/
def Obligations.C2iLineBindsTheDecodedInteger : Prop :=
  ∀ (s : State) (n : Name) (x : Int) (rest : List HostAction),
    s.script = .eval ⟨n, .c2i, .literal x⟩ :: rest → s.lookup n = none → 0 ≤ x → x < 2 ^ 32 →
    ∃ t, step s = .next t ∧ t.script = rest ∧
      t.lookup n = some ⟨n, DEC x.toNat, none⟩ ∧ (∀ m, m ≠ n → t.lookup m = s.lookup m)

/-- 30_encoding.md R51, `name = I2C literal`: the name is bound to the encoded word and to `enc_ovf`, and no other
binding changes. The integer is claimed where `enc_ovf` = 0 (93_implementation_defined.md U1). -/
def Obligations.I2cLineBindsTheEncodedWord : Prop :=
  ∀ (s : State) (n : Name) (x : Int) (rest : List HostAction),
    s.script = .eval ⟨n, .i2c, .literal x⟩ :: rest → s.lookup n = none → InVR x →
    ∃ t b, step s = .next t ∧ t.script = rest ∧ t.lookup n = some b ∧
      b.ovf = some (OVF x) ∧ (OVF x = false → b.value = ENC x) ∧ (∀ m, m ≠ n → t.lookup m = s.lookup m)

/-- 42_codec_laws.md R97 in the machine: a C2I result given to I2C by its name is never out of range, never overflows,
and the word bound stands for the same integer. -/
def Obligations.ChainedEvaluationNeverOverflows : Prop :=
  ∀ (s : State) (n m : Name) (b : Binding) (rest : List HostAction),
    s.Inv → s.script = .eval ⟨n, .i2c, .name m⟩ :: rest → s.lookup n = none →
    s.lookup m = some b → b.ovf = none →
    ∃ t r, step s = .next t ∧ t.lookup n = some r ∧ r.ovf = some false ∧
      sint (c2iValue (BitVec.ofInt 32 r.value)) = b.value

/-- 60_exceptions.md R109, 93_implementation_defined.md U2 and U8: a step is refused only for what the host presents,
and each refusal says why. The two refusals about names are the model's reading of U8 (log 8). -/
def Obligations.RefusalsLieOutsideTheBlock : Prop :=
  ∀ (s : State) (r : Refusal), step s = .refused r →
    ∃ l rest, s.script = .eval l :: rest ∧
      ((r = .nameAlreadyBound l ∧ s.lookup l.name ≠ none) ∨
       (r = .nameNotBound l ∧ ∃ n, l.operand = .name n ∧ s.lookup n = none) ∨
       (r = .inputNotBinary l ∧ ∃ pins, l.operand = .levels pins ∧ levelsWord l.op pins = none) ∨
       (r = .operandOutOfRange l ∧ ∃ x, inPortRange l.op x = false ∧
         (l.operand = .literal x ∨ ∃ n b, l.operand = .name n ∧ s.lookup n = some b ∧ b.value = x)))

/-- 70_reset_and_hazards.md R116: an evaluation on pins that are not all binary is refused; on binary pins, one for each
bit of the port, it runs as on the number they give. Presenting levels is the model's form of the rule (log 7). -/
def Obligations.NonBinaryInputIsRefused : Prop :=
  ∀ (s : State) (n : Name) (op : Op) (pins : List Level) (rest : List HostAction),
    s.script = .eval ⟨n, op, .levels pins⟩ :: rest → s.lookup n = none →
    ((.x ∈ pins ∨ .z ∈ pins) → step s = .refused (.inputNotBinary ⟨n, op, .levels pins⟩)) ∧
    (.x ∉ pins → .z ∉ pins → pins.length = portWidth op →
      ∃ word i t, levelsNumber pins = some word ∧ decode (unitIndex op) word = .ok i ∧
        exec i { s with script := rest } = .next t ∧ step s = .next (t.settle.bindResult ⟨n, op, .levels pins⟩))

/-- 70_reset_and_hazards.md R116: when the host stops driving one unit's input, the other unit is unaffected: its input
stays, and its outputs stay the function of that input. Nothing is said of the released unit's outputs (log 3, log 7). -/
def Obligations.ReleaseLeavesTheOtherUnitAlone : Prop :=
  ∀ (s : State) (op : Op) (rest : List HostAction), s.script = .release op :: rest →
    ∃ t, step s = .next t ∧ t.script = rest ∧ t.bindings = s.bindings ∧
      match op with
      | .c2i => t.decCompact = .notBinary ∧ t.encValue = s.encValue ∧
          ∀ w, s.encValue = .held w → t.encCompact = i2cCompact w ∧ t.encOvf = i2cOvf w
      | .i2c => t.encValue = .notBinary ∧ t.decCompact = s.decCompact ∧
          ∀ c, s.decCompact = .held c → t.decValue = c2iValue c

/-- 10_state.md R11 with no action left: held inputs keep their outputs. That a step without an action answers a next
state is the model's choice (log 6). -/
def Obligations.IdleStepKeepsHeldOutputs : Prop :=
  ∀ (s : State) (c : CompactWord) (w : ValueWord),
    s.OutputsFollowInputs → s.script = [] → s.decCompact = .held c → s.encValue = .held w →
    step s = .next { s with freeIdx := s.freeIdx + 1 }

/-- 10_state.md R23 and R11 at power-up: nothing is bound, no output is claimed, and the invariant holds. -/
def Obligations.ResetMeetsTheInvariant : Prop :=
  State.reset.Inv ∧ State.reset.decCompact = .notBinary ∧ State.reset.encValue = .notBinary ∧
  State.reset.script = [] ∧ State.reset.bindings = []

/-- 10_state.md R11, 30_encoding.md R51, 93_implementation_defined.md U8: every step from a state that meets the
invariant leaves outputs following inputs, bindings that are results of evaluations, and names bound once. -/
def Obligations.StepKeepsTheInvariant : Prop :=
  ∀ s t : State, s.Inv → step s = .next t → t.Inv

/-- 70_reset_and_hazards.md R113: bindings are only added, at most one a step, and each step takes one action off the
script. -/
def Obligations.StepOnlyAddsABinding : Prop :=
  ∀ s t : State, step s = .next t →
    t.script = s.script.tail ∧
    (t.bindings = s.bindings ∨ ∃ l rest b, s.script = .eval l :: rest ∧ t.bindings = b :: s.bindings ∧ b.name = l.name)

/-- 70_reset_and_hazards.md R113, 60_exceptions.md R109: a well-formed script runs to its end, one step an action, and
every line's name is then bound. -/
def Obligations.WellFormedScriptRunsToItsEnd : Prop :=
  ∀ s : State, s.Inv → scriptWf s.known s.script = true →
    ∃ t : State, Host.Core.run core s.script.length s = .next t ∧ t.script = [] ∧ t.Inv ∧
      ∀ l, .eval l ∈ s.script → t.lookup l.name ≠ none

/-- The host's load of one word (log 5, log 6): the very next step evaluates the instruction the decoder reads from that
word, from any state. -/
def Obligations.LoadedWordRunsNext : Prop :=
  ∀ (s : State) (nbits w : Nat) (i : Instr), decodeTableWord nbits w = some i →
    ∃ t, exec i s = .next t ∧ step (s.withFetchWord nbits w) = .next (t.settle.bindResult (s.lineOfWord nbits w))
end

