-- ==== Sys2Proof/Laws/Decode.lean ====
section
/-! SUPPORT. When the decoder answers. -/

namespace Sys2Proof

open Sys2Proof.Machine

/-- The instruction a unit's word encodes. -/
def instrOf (op : Op) (word : Nat) : Instr :=
  match op with
  | .c2i => .c2i (BitVec.ofNat 32 word)
  | .i2c => .i2c (BitVec.ofNat 2040 word)

/-- Every word of a unit's port is decoded (30_encoding.md R44, R45). -/
theorem decode_ok (op : Op) {word : Nat} (h : word < 2 ^ portWidth op) :
    decode (unitIndex op) word = .ok (instrOf op word) := by
  cases op <;> simp only [portWidth] at h <;> simp only [decode, unitIndex, instrOf, if_pos h]

/-- All the decoder can answer. -/
theorem decode_cases {unit word : Nat} {i : Instr} (h : decode unit word = .ok i) :
    ∃ op, unit = unitIndex op ∧ word < 2 ^ portWidth op ∧ i = instrOf op word := by
  unfold decode at h
  split at h
  · split at h
    · rename_i hw; exact ⟨.c2i, rfl, by simpa only [portWidth] using hw, by cases h; rfl⟩
    · cases h
  · split at h
    · rename_i hw; exact ⟨.i2c, rfl, by simpa only [portWidth] using hw, by cases h; rfl⟩
    · cases h
  · cases h

end Sys2Proof
end

