-- ==== Sys2Proof/Laws/Operands.lean ====
section
/-! SUPPORT. What the operand forms compute, as arithmetic. -/

namespace Sys2Proof.Machine

/-- The exponent field as a quotient (30_encoding.md R41). -/
theorem sizeField_toNat (c : CompactWord) : (sizeField c).toNat = c.toNat / 2 ^ 24 := by
  have h := c.isLt
  simp only [sizeField, BitVec.extractLsb'_toNat, Nat.shiftRight_eq_div_pow]
  omega

/-- The mantissa field as a remainder (30_encoding.md R41). -/
theorem mantissaField_toNat (c : CompactWord) : (mantissaField c).toNat = c.toNat % 2 ^ 23 := by
  simp [mantissaField, BitVec.extractLsb'_toNat]

/-- The sign bit as a digit (30_encoding.md R41). -/
theorem signBit_eq (c : CompactWord) : signBit c = decide (c.toNat / 2 ^ 23 % 2 = 1) := by
  simp [signBit, BitVec.getLsbD, Nat.testBit_eq_decide_div_mod_eq]

/-- The three fields do not overlap: packing is addition (30_encoding.md R42). -/
theorem packCompact_toNat (size : BitVec 8) (sign : Bool) (m : BitVec 23) :
    (packCompact size sign m).toNat = size.toNat * 2 ^ 24 + sign.toNat * 2 ^ 23 + m.toNat := by
  have hm := m.isLt
  have hs : sign.toNat < 2 ^ 1 := by cases sign <;> decide
  have h1 : (size ++ BitVec.ofBool sign).toNat = size.toNat * 2 + sign.toNat := by
    rw [BitVec.toNat_append, BitVec.toNat_ofBool, ← Nat.shiftLeft_add_eq_or_of_lt hs, Nat.shiftLeft_eq]
  rw [packCompact, BitVec.toNat_append, h1, ← Nat.shiftLeft_add_eq_or_of_lt hm, Nat.shiftLeft_eq]
  omega

/-- The bit length of a positive number (00_scope.md section 5). -/
theorem bitLength_spec {v : Nat} (hv : v ≠ 0) : 2 ^ (bitLength v - 1) ≤ v ∧ v < 2 ^ bitLength v := by
  simp only [bitLength, if_neg hv, Nat.add_sub_cancel]
  exact ⟨Nat.log2_self_le hv, Nat.lt_log2_self⟩

@[simp] theorem bitLength_zero : bitLength 0 = 0 := rfl

theorem bitLength_pos {v : Nat} (hv : v ≠ 0) : 1 ≤ bitLength v := by simp [bitLength, hv]

@[simp] theorem byteLen_zero : byteLen 0 = 0 := rfl

/-- Binary levels give a number below 2 to their count. -/
theorem levelsNumber_lt {pins : List Level} {n : Nat} (h : levelsNumber pins = some n) : n < 2 ^ pins.length := by
  induction pins generalizing n with
  | nil => simp only [levelsNumber, Option.some.injEq] at h; subst h; exact Nat.one_pos
  | cons p pins ih =>
    cases p <;> simp only [levelsNumber, Option.map_eq_some_iff] at h
    · obtain ⟨m, hm, rfl⟩ := h
      have := ih hm
      simp only [List.length_cons, Nat.pow_succ]; omega
    · obtain ⟨m, hm, rfl⟩ := h
      have := ih hm
      simp only [List.length_cons, Nat.pow_succ]; omega
    all_goals exact absurd h (by simp)

/-- The levels of a port give a word of the port (70_reset_and_hazards.md R116). -/
theorem levelsWord_lt {op : Op} {pins : List Level} {n : Nat} (h : levelsWord op pins = some n) :
    n < 2 ^ portWidth op := by
  unfold levelsWord at h
  split at h
  · rename_i hl; exact hl ▸ levelsNumber_lt h
  · cases h

/-- An integer has a port word exactly when it is in the port's range (30_encoding.md R51). -/
theorem integerWord_isSome (op : Op) (x : Int) : (integerWord op x).isSome = inPortRange op x := by
  unfold integerWord
  cases inPortRange op x
  · simp only [Bool.false_eq_true, if_false, Option.isSome_none]
  · cases op <;> simp only [if_true, Option.isSome_some]

/-- The port word of an integer is a word of the port. -/
theorem integerWord_lt {op : Op} {x : Int} {n : Nat} (h : integerWord op x = some n) : n < 2 ^ portWidth op := by
  unfold integerWord at h
  split at h
  · rename_i hr
    cases op
    · simp only [inPortRange, decide_eq_true_eq] at hr
      simp only [Option.some.injEq] at h
      simp only [portWidth]; omega
    · simp only [Option.some.injEq] at h
      subst h
      simpa only [portWidth] using (tc x).isLt
  · cases h

end Sys2Proof.Machine
end

