-- ==== Sys2Proof/Laws/PerInstr.lean ====
section
/-! SUPPORT. Statements about each instruction as syntax. -/

namespace Sys2Proof.Laws

/-- The encoding of an evaluation is a unit the block has and a word of that unit's port (30_encoding.md R46). -/
def EncodesToPortWord.Statement (i : Instr) : Prop :=
  ∃ op, (encode i).1 = Machine.unitIndex op ∧ (encode i).2 < 2 ^ Machine.portWidth op

theorem EncodesToPortWord.c2i (c : CompactWord) : EncodesToPortWord.Statement (.c2i c) :=
  ⟨.c2i, rfl, by simpa only [encode, Machine.portWidth] using c.isLt⟩

theorem EncodesToPortWord.i2c (w : ValueWord) : EncodesToPortWord.Statement (.i2c w) :=
  ⟨.i2c, rfl, by simpa only [encode, Machine.portWidth] using w.isLt⟩

end Sys2Proof.Laws
end

