-- ==== Sys2Proof/Laws/State.lean ====
section
/-! SUPPORT. One lemma per field per update of State, and what an output is on each kind of input port. -/

namespace Sys2Proof.Machine

/-! ### `driveC2i` -/

@[simp] theorem State.driveC2i_decCompact (s : State) (c : CompactWord) : (s.driveC2i c).decCompact = .held c := rfl
@[simp] theorem State.driveC2i_decValue (s : State) (c : CompactWord) : (s.driveC2i c).decValue = c2iValue c := rfl
@[simp] theorem State.driveC2i_encValue (s : State) (c : CompactWord) : (s.driveC2i c).encValue = s.encValue := rfl
@[simp] theorem State.driveC2i_encCompact (s : State) (c : CompactWord) : (s.driveC2i c).encCompact = s.encCompact := rfl
@[simp] theorem State.driveC2i_encOvf (s : State) (c : CompactWord) : (s.driveC2i c).encOvf = s.encOvf := rfl
@[simp] theorem State.driveC2i_script (s : State) (c : CompactWord) : (s.driveC2i c).script = s.script := rfl
@[simp] theorem State.driveC2i_bindings (s : State) (c : CompactWord) : (s.driveC2i c).bindings = s.bindings := rfl
@[simp] theorem State.driveC2i_freeIdx (s : State) (c : CompactWord) : (s.driveC2i c).freeIdx = s.freeIdx := rfl

/-! ### `driveI2c` -/

@[simp] theorem State.driveI2c_decCompact (s : State) (w : ValueWord) : (s.driveI2c w).decCompact = s.decCompact := rfl
@[simp] theorem State.driveI2c_decValue (s : State) (w : ValueWord) : (s.driveI2c w).decValue = s.decValue := rfl
@[simp] theorem State.driveI2c_encValue (s : State) (w : ValueWord) : (s.driveI2c w).encValue = .held w := rfl
@[simp] theorem State.driveI2c_encCompact (s : State) (w : ValueWord) : (s.driveI2c w).encCompact = i2cCompact w := rfl
@[simp] theorem State.driveI2c_encOvf (s : State) (w : ValueWord) : (s.driveI2c w).encOvf = i2cOvf w := rfl
@[simp] theorem State.driveI2c_script (s : State) (w : ValueWord) : (s.driveI2c w).script = s.script := rfl
@[simp] theorem State.driveI2c_bindings (s : State) (w : ValueWord) : (s.driveI2c w).bindings = s.bindings := rfl
@[simp] theorem State.driveI2c_freeIdx (s : State) (w : ValueWord) : (s.driveI2c w).freeIdx = s.freeIdx := rfl

/-! ### `settle` -/

@[simp] theorem State.settle_decCompact (s : State) : (s.settle).decCompact = s.decCompact := rfl
@[simp] theorem State.settle_decValue (s : State) : (s.settle).decValue = decValueOf (s.freeIdx + 1) s.decCompact := rfl
@[simp] theorem State.settle_encValue (s : State) : (s.settle).encValue = s.encValue := rfl
@[simp] theorem State.settle_encCompact (s : State) : (s.settle).encCompact = encCompactOf (s.freeIdx + 1) s.encValue := rfl
@[simp] theorem State.settle_encOvf (s : State) : (s.settle).encOvf = encOvfOf (s.freeIdx + 1) s.encValue := rfl
@[simp] theorem State.settle_script (s : State) : (s.settle).script = s.script := rfl
@[simp] theorem State.settle_bindings (s : State) : (s.settle).bindings = s.bindings := rfl
@[simp] theorem State.settle_freeIdx (s : State) : (s.settle).freeIdx = s.freeIdx + 1 := rfl

/-! ### `bindResult` -/

@[simp] theorem State.bindResult_decCompact (s : State) (l : Line) : (s.bindResult l).decCompact = s.decCompact := rfl
@[simp] theorem State.bindResult_decValue (s : State) (l : Line) : (s.bindResult l).decValue = s.decValue := rfl
@[simp] theorem State.bindResult_encValue (s : State) (l : Line) : (s.bindResult l).encValue = s.encValue := rfl
@[simp] theorem State.bindResult_encCompact (s : State) (l : Line) : (s.bindResult l).encCompact = s.encCompact := rfl
@[simp] theorem State.bindResult_encOvf (s : State) (l : Line) : (s.bindResult l).encOvf = s.encOvf := rfl
@[simp] theorem State.bindResult_script (s : State) (l : Line) : (s.bindResult l).script = s.script := rfl
@[simp] theorem State.bindResult_bindings (s : State) (l : Line) : (s.bindResult l).bindings = s.sample l :: s.bindings := rfl
@[simp] theorem State.bindResult_freeIdx (s : State) (l : Line) : (s.bindResult l).freeIdx = s.freeIdx := rfl

/-! ### `release .c2i` -/

@[simp] theorem State.release_c2i_decCompact (s : State) : (s.release .c2i).decCompact = .notBinary := rfl
@[simp] theorem State.release_c2i_decValue (s : State) : (s.release .c2i).decValue = s.decValue := rfl
@[simp] theorem State.release_c2i_encValue (s : State) : (s.release .c2i).encValue = s.encValue := rfl
@[simp] theorem State.release_c2i_encCompact (s : State) : (s.release .c2i).encCompact = s.encCompact := rfl
@[simp] theorem State.release_c2i_encOvf (s : State) : (s.release .c2i).encOvf = s.encOvf := rfl
@[simp] theorem State.release_c2i_script (s : State) : (s.release .c2i).script = s.script := rfl
@[simp] theorem State.release_c2i_bindings (s : State) : (s.release .c2i).bindings = s.bindings := rfl
@[simp] theorem State.release_c2i_freeIdx (s : State) : (s.release .c2i).freeIdx = s.freeIdx := rfl

/-! ### `release .i2c` -/

@[simp] theorem State.release_i2c_decCompact (s : State) : (s.release .i2c).decCompact = s.decCompact := rfl
@[simp] theorem State.release_i2c_decValue (s : State) : (s.release .i2c).decValue = s.decValue := rfl
@[simp] theorem State.release_i2c_encValue (s : State) : (s.release .i2c).encValue = .notBinary := rfl
@[simp] theorem State.release_i2c_encCompact (s : State) : (s.release .i2c).encCompact = s.encCompact := rfl
@[simp] theorem State.release_i2c_encOvf (s : State) : (s.release .i2c).encOvf = s.encOvf := rfl
@[simp] theorem State.release_i2c_script (s : State) : (s.release .i2c).script = s.script := rfl
@[simp] theorem State.release_i2c_bindings (s : State) : (s.release .i2c).bindings = s.bindings := rfl
@[simp] theorem State.release_i2c_freeIdx (s : State) : (s.release .i2c).freeIdx = s.freeIdx := rfl

/-! ### `withFetchWord` -/

@[simp] theorem State.withFetchWord_decCompact (s : State) (nbits w : Nat) : (s.withFetchWord nbits w).decCompact = s.decCompact := rfl
@[simp] theorem State.withFetchWord_decValue (s : State) (nbits w : Nat) : (s.withFetchWord nbits w).decValue = s.decValue := rfl
@[simp] theorem State.withFetchWord_encValue (s : State) (nbits w : Nat) : (s.withFetchWord nbits w).encValue = s.encValue := rfl
@[simp] theorem State.withFetchWord_encCompact (s : State) (nbits w : Nat) : (s.withFetchWord nbits w).encCompact = s.encCompact := rfl
@[simp] theorem State.withFetchWord_encOvf (s : State) (nbits w : Nat) : (s.withFetchWord nbits w).encOvf = s.encOvf := rfl
@[simp] theorem State.withFetchWord_script (s : State) (nbits w : Nat) : (s.withFetchWord nbits w).script = .eval (s.lineOfWord nbits w) :: s.script := rfl
@[simp] theorem State.withFetchWord_bindings (s : State) (nbits w : Nat) : (s.withFetchWord nbits w).bindings = s.bindings := rfl
@[simp] theorem State.withFetchWord_freeIdx (s : State) (nbits w : Nat) : (s.withFetchWord nbits w).freeIdx = s.freeIdx := rfl

/-! ### Outputs as functions of an input port -/

@[simp] theorem decValueOf_held (k : Nat) (c : CompactWord) : decValueOf k (.held c) = c2iValue c := rfl
@[simp] theorem decValueOf_notBinary (k : Nat) : decValueOf k .notBinary = Config.freeDecValue k := rfl
@[simp] theorem encCompactOf_held (k : Nat) (w : ValueWord) : encCompactOf k (.held w) = i2cCompact w := rfl
@[simp] theorem encCompactOf_notBinary (k : Nat) : encCompactOf k .notBinary = Config.freeEncCompact k := rfl
@[simp] theorem encOvfOf_held (k : Nat) (w : ValueWord) : encOvfOf k (.held w) = i2cOvf w := rfl
@[simp] theorem encOvfOf_notBinary (k : Nat) : encOvfOf k .notBinary = Config.freeEncOvf k := rfl

/-! ### The meanings -/

@[simp] theorem exec_c2i (c : CompactWord) (s : State) : exec (.c2i c) s = .next (s.driveC2i c) := rfl
@[simp] theorem exec_i2c (w : ValueWord) (s : State) : exec (.i2c w) s = .next (s.driveI2c w) := rfl

end Sys2Proof.Machine
end

