-- ==== Sys2Proof/Laws/Step.lean ====
section
/-! SUPPORT. What a fetch, an evaluation and a step can do, said once. -/

namespace Sys2Proof.Machine

/-- All a fetch can answer: the line's name is new, its operand has a port word, and the instruction is the line's
unit on that word. -/
theorem fetch_ok {s : State} {l : Line} {i : Instr} :
    s.fetch l = .ok i ↔
      s.lookup l.name = none ∧ ∃ word, s.operandWord l = .ok word ∧ word < 2 ^ portWidth l.op ∧ i = instrOf l.op word := by
  unfold State.fetch
  constructor
  · intro h
    split at h
    · cases h
    · rename_i hn
      refine ⟨by simpa using hn, ?_⟩
      split at h
      · cases h
      · rename_i word hw
        split at h
        · rename_i j hj
          cases h
          obtain ⟨op, hop, hlt, rfl⟩ := decode_cases hj
          have : op = l.op := by cases op <;> cases hl : l.op <;> simp_all [unitIndex]
          subst this
          exact ⟨word, hw, hlt, rfl⟩
        · cases h
  · rintro ⟨hn, word, hw, hlt, rfl⟩
    simp [hn, hw, decode_ok l.op hlt]

/-- An evaluation always answers a next state, and touches only its unit's ports. -/
theorem exec_instrOf (op : Op) (word : Nat) (s : State) :
    exec (instrOf op word) s =
      .next (match op with
        | .c2i => s.driveC2i (BitVec.ofNat 32 word)
        | .i2c => s.driveI2c (BitVec.ofNat 2040 word)) := by
  cases op <;> rfl

/-- All a step can do when it answers a next state: idle, a release, or one line run. -/
theorem step_cases {s t : State} (h : step s = .next t) :
    (s.script = [] ∧ t = s.settle) ∨
    (∃ op rest, s.script = .release op :: rest ∧ t = ({ s with script := rest }.release op).settle) ∨
    (∃ l rest i u, s.script = .eval l :: rest ∧ s.fetch l = .ok i ∧ exec i { s with script := rest } = .next u ∧
      t = u.settle.bindResult l) := by
  unfold step at h
  split at h
  · rename_i hs; exact .inl ⟨hs, by cases h; rfl⟩
  · rename_i op rest hs; exact .inr (.inl ⟨op, rest, hs, by cases h; rfl⟩)
  · rename_i l rest hs
    split at h
    · cases h
    · rename_i i hf
      obtain ⟨u, hu⟩ : ∃ u, exec i { s with script := rest } = .next u := by cases i <;> exact ⟨_, rfl⟩
      rw [hu] at h
      exact .inr (.inr ⟨l, rest, i, u, hs, hf, hu, by cases h; rfl⟩)

/-- A step is refused exactly when the host's next line cannot be fetched. -/
theorem step_refused {s : State} {r : Refusal} :
    step s = .refused r ↔ ∃ l rest, s.script = .eval l :: rest ∧ s.fetch l = .error r := by
  unfold step
  constructor
  · intro h
    split at h
    · cases h
    · cases h
    · rename_i l rest hs
      split at h
      · rename_i r' hf; cases h; exact ⟨l, rest, hs, hf⟩
      · rename_i i hf; cases i <;> cases h
  · rintro ⟨l, rest, hs, hf⟩
    simp [hs, hf]

/-- Settled outputs follow their inputs (10_state.md R11). -/
theorem settle_outputsFollowInputs (s : State) : s.settle.OutputsFollowInputs := by
  refine ⟨fun c hc => ?_, fun w hw => ?_⟩
  · have hc : s.decCompact = .held c := hc
    simp [hc]
  · have hw : s.encValue = .held w := hw
    simp [hw]

end Sys2Proof.Machine
end

