-- ==== Sys2Proof/Laws/Words.lean ====
section
/-! SUPPORT. The two's complement reading, shifts by whole bytes, and the ranges the two units' arithmetic stays in. -/

namespace Sys2Proof.Machine

/-- Reading back the word of an integer in the value range (00_scope.md section 5). -/
theorem sint_tc {x : Int} (h : InVR x) : sint (tc x) = x := by
  rw [sint, tc, BitVec.toInt_ofInt]
  have h2 : ((2 ^ 2040 : Nat) : Int) = 2 * 2 ^ 2039 := by
    rw [show (2040 : Nat) = 2039 + 1 from rfl, pow_succ, Int.natCast_mul, Int.natCast_pow, mul_comm]; simp only [Int.cast_ofNat_Int]
  apply Int.bmod_eq_of_le
  · have := h.1; rw [h2]; omega
  · have := h.2; rw [h2]; omega

/-- Every value word stands for an integer of the value range (10_state.md R21). -/
theorem sint_inVR (w : ValueWord) : InVR (sint w) := ⟨BitVec.le_toInt w, BitVec.toInt_lt⟩

theorem tc_sint (w : ValueWord) : tc (sint w) = w := BitVec.ofInt_toInt

theorem sint_inj {v w : ValueWord} (h : sint v = sint w) : v = w := BitVec.toInt_inj.1 h

/-- Shifts by whole bytes are powers of 256 (20_memory.md R29). -/
theorem byteShift_eq (k : Nat) : 256 ^ k = 2 ^ (8 * k) := by rw [pow_mul]; norm_num

/-- C2I's magnitude as a quotient or a product by a power of 256. -/
theorem c2iMagnitude_eq (size word : Nat) :
    c2iMagnitude size word = if size ≤ 3 then word / 256 ^ (3 - size) else word * 256 ^ (size - 3) := by
  simp only [c2iMagnitude, Nat.shiftRight_eq_div_pow, Nat.shiftLeft_eq, byteShift_eq]

/-- The closed form's magnitude is the stepwise one on the extracted fields. -/
theorem MAG_eq_c2iMagnitude (c : CompactWord) :
    MAG c.toNat = c2iMagnitude (sizeField c).toNat (mantissaField c).toNat := by
  rw [c2iMagnitude_eq, sizeField_toNat, mantissaField_toNat, MAG]

/-- C2I's sign predicate on the whole word's digits. -/
theorem c2iNegative_iff (c : CompactWord) :
    c2iNegative c = true ↔ c.toNat / 2 ^ 23 % 2 = 1 ∧ c.toNat % 2 ^ 23 ≠ 0 := by
  simp only [c2iNegative, signBit_eq, Bool.and_eq_true, decide_eq_true_eq, bne_iff_ne, ne_eq, ← mantissaField_toNat]
  rw [← BitVec.toNat_inj]; rfl

theorem DEC_natAbs (c : Nat) : (DEC c).natAbs = MAG c := by
  unfold DEC; split <;> simp

/-- A number below `2^n` has at most `n` bits. -/
theorem bitLength_le {v n : Nat} (h : v < 2 ^ n) : bitLength v ≤ n := by
  by_cases hv : v = 0
  · subst hv; simp
  · by_contra hc
    have h1 : 2 ^ n ≤ v := le_trans (Nat.pow_le_pow_right (by decide) (by omega)) (bitLength_spec hv).1
    omega

/-- A number from `2^n` on has more than `n` bits. -/
theorem lt_bitLength {v n : Nat} (h : 2 ^ n ≤ v) : n < bitLength v := by
  have hv : v ≠ 0 := by have := Nat.two_pow_pos n; omega
  by_contra hc
  have h1 : v < 2 ^ n := lt_of_lt_of_le (bitLength_spec hv).2 (Nat.pow_le_pow_right (by decide) (by omega))
  omega

/-- I2C's intermediate as arithmetic (41_i2c_encode.md R71, R72). -/
theorem i2cWindow_eq (v : Nat) :
    i2cWindow v = if byteLen v ≤ 3 then v * 2 ^ (8 * (3 - byteLen v)) else v / 2 ^ (8 * (byteLen v - 3)) := by
  rw [i2cWindow, windowShift, Nat.shiftLeft_eq, Nat.shiftRight_eq_div_pow]

/-- The magnitude of a value word (41_i2c_encode.md R68). -/
theorem natAbs_sint_le (w : ValueWord) : (sint w).natAbs ≤ 2 ^ 2039 := by
  have h1 := (sint_inVR w).1
  have h2 := (sint_inVR w).2
  have h3 : ((2 ^ 2039 : Nat) : Int) = 2 ^ 2039 := by rw [Int.natCast_pow]; simp only [Int.cast_ofNat_Int]
  rw [← h3] at h1 h2
  generalize 2 ^ 2039 = A at *
  omega

/-- The bytes of a value word (20_memory.md R28). -/
theorem byteOf_toNat (w : ValueWord) (i : Nat) : (byteOf w i).toNat = w.toNat / 2 ^ (8 * i) % 256 := by
  rw [byteOf, BitVec.extractLsb'_toNat, Nat.shiftRight_eq_div_pow]

end Sys2Proof.Machine
end

