-- ==== Sys2Proof/Laws/Script.lean ====
section
/-! SUPPORT. Names and bindings of the host's script. -/

namespace Sys2Proof.Machine

theorem sample_name (s : State) (l : Line) : (s.sample l).name = l.name := by
  unfold State.sample; cases l.op <;> rfl

/-- A line's name is bound to the sampled outputs. -/
theorem lookup_bindResult_self (s : State) (l : Line) : (s.bindResult l).lookup l.name = some (s.sample l) := by
  simp [State.lookup, sample_name]

/-- Binding a name leaves every other name's binding. -/
theorem lookup_bindResult_ne (s : State) (l : Line) {m : Name} (h : m ≠ l.name) :
    (s.bindResult l).lookup m = s.lookup m := by
  simp [State.lookup, sample_name, h.symm]

theorem lookup_mem {s : State} {n : Name} {b : Binding} (h : s.lookup n = some b) : b ∈ s.bindings ∧ b.name = n :=
  ⟨List.mem_of_find?_eq_some h, by simpa using List.find?_some h⟩

theorem lookup_eq_none {s : State} {n : Name} : s.lookup n = none ↔ n ∉ s.bindings.map (·.name) := by
  simp only [State.lookup, List.find?_eq_none, List.mem_map, not_exists, not_and, beq_iff_eq]

/-- Every length is at most the running maximum. -/
theorem length_le_foldr_max (names : List Name) : ∀ m ∈ names, m.length ≤ (names.map List.length).foldr max 0 := by
  induction names with
  | nil => simp
  | cons a names ih =>
    intro m hm
    simp only [List.map_cons, List.foldr_cons]
    rcases List.mem_cons.1 hm with rfl | h
    · exact le_max_left _ _
    · exact le_trans (ih m h) (le_max_right _ _)

/-- The fresh name is not used (log 6). -/
theorem freshName_not_used (s : State) : s.freshName ∉ s.usedNames := by
  intro h
  have := length_le_foldr_max _ _ h
  simp only [State.freshName, List.length_cons, List.length_replicate] at this
  omega

/-- So a line may bind it. -/
theorem lookup_freshName (s : State) : s.lookup s.freshName = none :=
  lookup_eq_none.2 fun h => freshName_not_used s (List.mem_append_left _ h)

/-- The integer written for a port word has that port word (30_encoding.md R51). -/
theorem integerWord_wordInteger (op : Op) {word : Nat} (h : word < 2 ^ portWidth op) :
    integerWord op (wordInteger op word) = some word := by
  cases op
  · simp only [portWidth] at h
    have hr : inPortRange .c2i (word : Int) = true := by
      simp only [inPortRange, decide_eq_true_eq]; omega
    have hw : wordInteger .c2i word = (word : Int) := rfl
    rw [hw, integerWord, if_pos hr]; rfl
  · simp only [portWidth] at h
    have hr : inPortRange .i2c (sint (BitVec.ofNat 2040 word)) = true := by
      simp only [inPortRange, decide_eq_true_eq]
      exact sint_inVR _
    have hw : wordInteger .i2c word = sint (BitVec.ofNat 2040 word) := by simp only [wordInteger, if_pos h]
    rw [hw, integerWord, if_pos hr]
    simp only [tc_sint, BitVec.toNat_ofNat, Nat.mod_eq_of_lt h]

/-- What `scriptWf` knows of a name is which unit its binding came from. -/
theorem known_lookup (s : State) (n : Name) :
    s.known.lookup n = (s.lookup n).map fun b => if b.ovf.isSome then Op.i2c else Op.c2i := by
  unfold State.known State.lookup
  induction s.bindings with
  | nil => rfl
  | cons b bs ih =>
    simp only [List.map_cons, List.lookup_cons, List.find?_cons]
    by_cases h : n = b.name
    · subst h; simp
    · have h1 : (n == b.name) = false := by simpa using h
      have h2 : (b.name == n) = false := by simpa using fun e => h e.symm
      rw [h1, h2]; exact ih

end Sys2Proof.Machine
end

