-- ==== Sys2Proof/Machine/Text.lean ====
section
/-! DEFINITION. Reading a script line from its text (30_encoding.md R51). R51 gives the grammar of a line and of a
literal; the form of a name, the blanks and the case of hexadecimal digits are DESIGN CHOICE, log 11. -/

namespace Sys2Proof.Machine

/-- The value of a hexadecimal digit, either case. -/
def hexDigit (c : Char) : Option Nat :=
  if '0' ≤ c ∧ c ≤ '9' then some (c.toNat - 48)
  else if 'a' ≤ c ∧ c ≤ 'f' then some (c.toNat - 87)
  else if 'A' ≤ c ∧ c ≤ 'F' then some (c.toNat - 55)
  else none

/-- `hexdigit*` read after the digits of `acc`, most significant first. -/
def readDigits (acc : Nat) : List Char → Option Nat
  | [] => some acc
  | c :: cs =>
    match hexDigit c with
    | some d => readDigits (16 * acc + d) cs
    | none => none

/-- `"0x" hexdigit+`. -/
def readMagnitude : List Char → Option Nat
  | '0' :: 'x' :: c :: cs => readDigits 0 (c :: cs)
  | _ => none

/-- `literal := ["-"] "0x" hexdigit+` (R51). -/
def readLiteral : List Char → Option Int
  | '-' :: cs => (readMagnitude cs).map fun n => -(n : Int)
  | cs => (readMagnitude cs).map fun n => (n : Int)

/-- `op := "C2I" | "I2C"` (R51). -/
def readOp : List Char → Option Op
  | ['C', '2', 'I'] => some .c2i
  | ['I', '2', 'C'] => some .i2c
  | _ => none

/-- A name: a letter, then letters, digits and underscores; log 11. -/
def isName : List Char → Bool
  | [] => false
  | c :: cs => c.isAlpha && cs.all fun d => d.isAlphanum || d == '_'

/-- `operand := name | literal` (R51). -/
def readOperand (cs : List Char) : Option Operand :=
  match readLiteral cs with
  | some x => some (.literal x)
  | none => if isName cs then some (.name cs) else none

/-- The parts of a line between its blanks, empty parts kept. -/
def splitBlanks : List Char → List (List Char)
  | [] => [[]]
  | c :: cs =>
    match splitBlanks cs with
    | [] => [[c]]
    | w :: ws => if c = ' ' then [] :: w :: ws else (c :: w) :: ws

/-- `line := name "=" op operand` (R51), its four parts separated by blanks; none if the text is no line. -/
def readLine (text : List Char) : Option Line :=
  match (splitBlanks text).filter (· ≠ []) with
  | [n, ['='], o, a] =>
    match readOp o, readOperand a with
    | some op, some operand => if isName n then some ⟨n, op, operand⟩ else none
    | _, _ => none
  | _ => none

end Sys2Proof.Machine
end

