-- ==== Sys2Proof/Tests/Slice0.lean ====
section
/-! SUPPORT. Tests: decoding, the well-formedness checks, the spec's vectors (95_test_vectors.md), reading a script line,
and for each obligation with hypotheses a state and operands that meet them. Expected values are the spec's. -/

namespace Sys2Proof.Tests

open Sys2Proof Sys2Proof.Machine

/-- Both inputs held at 0, nothing bound, the given script to do. -/
def idle (script : List HostAction) : State where
  decCompact := .held 0#32
  decValue := 0#2040
  encValue := .held 0#2040
  encCompact := 0#32
  encOvf := false
  script := script
  bindings := []
  freeIdx := 0

/-- As `idle`, with `a` bound to the C2I result 0x8000 (95_test_vectors.md, program 1, line 1). -/
def bound (script : List HostAction) : State := { idle script with bindings := [⟨['a'], 0x8000, none⟩] }

/-- The step answers a next state that meets `p`. -/
def nextMeets (s : State) (p : State → Bool) : Bool :=
  match step s with
  | .next t => p t
  | _ => false

/-- The step is refused for `r`. -/
def refusedFor (s : State) (r : Refusal) : Bool :=
  match step s with
  | .refused r' => r' == r
  | _ => false

/-! ### Decoding: words written out from 30_encoding.md R37 and R43 -/

/-- exponent 00000101, sign 0, mantissa 0x123456 (vector D11). -/
theorem test_decode_c2i : decode 0 0b00000101000100100011010001010110 = .ok (.c2i 0x05123456#32) := by decide

/-- 2039 zero bits and a one (vector E2), and 2040 ones (vector E3: −1). -/
theorem test_decode_i2c :
    decode 1 1 = .ok (.i2c (tc 1)) ∧ decode 1 (2 ^ 2040 - 1) = .ok (.i2c (tc (-1))) := by decide +kernel

theorem test_decode_refuses :
    decode 2 0 = .error (.noSuchUnit 2) ∧ decode 0 (2 ^ 32) = .error (.notAWordOfThePort 0 (2 ^ 32)) ∧
    decode 1 (2 ^ 2040) = .error (.notAWordOfThePort 1 (2 ^ 2040)) := by decide +kernel

theorem test_decodeTableWord :
    decodeTableWord 32 0x05123456 = some (.c2i 0x05123456#32) ∧ decodeTableWord 2040 5 = some (.i2c 5#2040) ∧
    decodeTableWord 2048 5 = none := by decide +kernel

theorem test_fields :
    sizeField 0x05923456#32 = 5#8 ∧ signBit 0x05923456#32 = true ∧ mantissaField 0x05923456#32 = 0x123456#23 := by decide

/-! ### C2I and I2C: vectors of 95_test_vectors.md sections 1 and 2 -/

/-- D1 to D34: a signed zero, each small size, truncation, sign extension, sizes above 34, the two bounds. -/
theorem test_c2i_vectors : ∀ p ∈ ([
    (0x00800000#32, 0), (0x01810000#32, -1), (0x01803456#32, 0), (0x01123456#32, 0x12), (0x02123456#32, 0x1234),
    (0x03123456#32, 0x123456), (0x04123456#32, 0x12345600), (0x05923456#32, -0x1234560000), (0x00FFFFFF#32, 0),
    (0x04800001#32, -0x100), (0x85123456#32, 0x123456 * 256 ^ 130), (0xFF000001#32, 2 ^ 2016), (0xFF800000#32, 0),
    (0xFF7FFFFF#32, 2 ^ 2039 - 2 ^ 2016), (0xFFFFFFFF#32, -(2 ^ 2039 - 2 ^ 2016))] : List (CompactWord × Int)),
    sint (c2iValue p.1) = p.2 ∧ c2iDatapath p.1 = c2iValue p.1 := by decide +kernel

/-- E1 to E32: zero, the sign, every renormalising size, truncation, the widest operands, the overflow operand. -/
theorem test_i2c_vectors : ∀ p ∈ ([
    (0, 0x00000000#32, false), (-1, 0x01810000#32, false), (0x7F, 0x017F0000#32, false), (0x80, 0x02008000#32, false),
    (0xFFFF, 0x0300FFFF#32, false), (0x7FFFFF, 0x037FFFFF#32, false), (0xFFFFFF, 0x0400FFFF#32, false),
    (0x1000000, 0x04010000#32, false), (0xC0DE123456, 0x0600C0DE#32, false), (-0x92345678, 0x05809234#32, false),
    (2 ^ 256 - 1, 0x2100FFFF#32, false), (2 ^ 2031, 0xFF008000#32, false), (2 ^ 2039 - 1, 0xFF7FFFFF#32, false),
    (-(2 ^ 2039 - 1), 0xFFFFFFFF#32, false), (-2 ^ 2039, 0x00808000#32, true)] : List (Int × CompactWord × Bool)),
    i2cCompact (tc p.1) = p.2.1 ∧ i2cOvf (tc p.1) = p.2.2 ∧ i2cDatapath (tc p.1) = p.2 := by decide +kernel

/-- The closed forms on the canonical, the non-canonical and the overflow word (RT6, CR1, CR17, RT13). -/
theorem test_closed_forms :
    DEC 0x05009234 = 0x92340000 ∧ ENC 0x92345678 = 0x05009234 ∧ roundTrip 0x92345678 = 0x92340000 ∧
    OVF (-2 ^ 2039) = true ∧ canonical 0x01010000#32 = true ∧ canonical 0x03000001#32 = false ∧
    canonical 0x01008000#32 = false ∧ canonical 0#32 = true ∧ canonical 0x00808000#32 = false := by decide +kernel

/-! ### Steps -/

/-- Program 1, line 1: `a = C2I 0x04000080` binds 0x8000 and no flag. -/
theorem test_step_c2i :
    nextMeets (idle [.eval ⟨['a'], .c2i, .literal 0x04000080⟩])
      (fun t => t.bindings == [⟨['a'], 0x8000, none⟩] && t.decCompact == .held 0x04000080#32) = true := by decide +kernel

/-- Program 1, line 2: `b = I2C a` binds 0x03008000 with `b.ovf` = 0. -/
theorem test_step_i2c :
    nextMeets (bound [.eval ⟨['b'], .i2c, .name ['a']⟩])
      (fun t => t.lookup ['b'] == some ⟨['b'], 0x03008000, some false⟩ && t.script == []) = true := by decide +kernel

/-- A script line's text (program 2, line 1; program 1, line 2). -/
theorem test_readLine :
    readLine ['p', ' ', '=', ' ', 'I', '2', 'C', ' ', '-', '0', 'x', '9', '2', '3', '4', '5', '6', '7', '8'] =
      some ⟨['p'], .i2c, .literal (-0x92345678)⟩ ∧
    readLine ['c', 'o', ' ', '=', ' ', 'I', '2', 'C', ' ', 'o', '1'] = some ⟨['c', 'o'], .i2c, .name ['o', '1']⟩ ∧
    readLine ['a', ' ', '=', ' ', 'C', '2', 'I', ' ', '0', 'x', 'F', 'f'] = some ⟨['a'], .c2i, .literal 255⟩ ∧
    readLine ['a', ' ', '=', ' ', 'C', '2', 'I', ' ', '0', 'x'] = none ∧
    readLine ['a', ' ', '=', ' ', 'D', 'E', 'C', ' ', '0', 'x', '1'] = none := by decide +kernel

/-! ### Well-formedness: an ill-formed script for each check -/

theorem test_wf_refuses_c2i_literal : scriptWf [] [.eval ⟨['a'], .c2i, .literal (2 ^ 32)⟩] = false := by decide +kernel
theorem test_wf_refuses_c2i_negative : scriptWf [] [.eval ⟨['a'], .c2i, .literal (-1)⟩] = false := by decide +kernel
theorem test_wf_refuses_i2c_literal : scriptWf [] [.eval ⟨['a'], .i2c, .literal (2 ^ 2039)⟩] = false := by decide +kernel
theorem test_wf_refuses_pins : scriptWf [] [.eval ⟨['a'], .c2i, .levels (List.replicate 31 .low ++ [.z])⟩] = false := by
  decide +kernel
theorem test_wf_refuses_pin_count : scriptWf [] [.eval ⟨['a'], .c2i, .levels [.high]⟩] = false := by decide +kernel
theorem test_wf_refuses_unbound : scriptWf [] [.eval ⟨['a'], .i2c, .name ['b']⟩] = false := by decide
theorem test_wf_refuses_c2i_of_c2i :
    scriptWf [] [.eval ⟨['a'], .c2i, .literal 5⟩, .eval ⟨['b'], .c2i, .name ['a']⟩] = false := by decide +kernel
theorem test_wf_refuses_rebinding :
    scriptWf [] [.eval ⟨['a'], .c2i, .literal 5⟩, .eval ⟨['a'], .i2c, .literal 5⟩] = false := by decide +kernel

/-- Program 1 is well formed. -/
theorem test_wf_program1 :
    scriptWf [] [.eval ⟨['a'], .c2i, .literal 0x04000080⟩, .eval ⟨['b'], .i2c, .name ['a']⟩,
      .release .i2c, .eval ⟨['c'], .c2i, .name ['b']⟩] = true := by decide +kernel

/-! ### Witnesses: states and operands that meet the hypotheses of the obligations -/

theorem witness_C2iRightShiftBranch :
    (sizeField 0x037FFFFF#32).toNat = 3 ∧ (sizeField 0x027FFFFF#32).toNat = 2 ∧ (sizeField 0x01FFFFFF#32).toNat = 1 ∧
    (sizeField 0x00FFFFFF#32).toNat = 0 := by decide

theorem witness_C2iLeftShiftBranch : 3 < (sizeField 0x04000001#32).toNat ∧ 3 < (sizeField 0xFFFFFFFF#32).toNat := by decide

theorem witness_SignPredicate :
    c2iMagnitude (sizeField 0x02800080#32).toNat (mantissaField 0x02800080#32).toNat = 0 := by decide

theorem witness_C2iSignExtends :
    c2iNegative 0xFF7FFFFF#32 = false ∧ c2iNegative 0xFFFFFFFF#32 = true ∧
    c2iMagnitude (sizeField 0xFFFFFFFF#32).toNat (mantissaField 0xFFFFFFFF#32).toNat ≠ 0 ∧
    bitLength (c2iMagnitude (sizeField 0xFFFFFFFF#32).toNat (mantissaField 0xFFFFFFFF#32).toNat) ≤ 2039 := by
  decide +kernel

theorem witness_C2iZeroMantissa : mantissaField 0xFF800000#32 = 0#23 := by decide

theorem witness_ByteLength :
    (1 : Nat) ≠ 0 ∧ 256 ^ 254 ≤ (sint (tc (256 ^ 254))).natAbs ∧ 256 ^ 254 ≤ (sint (tc (-2 ^ 2039))).natAbs := by
  decide +kernel

theorem witness_I2cIntermediateRanges : (sint (tc (-2 ^ 2039))).natAbs ≠ 0 ∧ (sint (tc 1)).natAbs ≠ 0 := by
  decide +kernel

theorem witness_I2cRenormalises : 0x800000 ≤ i2cWindow 0x80 ∧ i2cWindow 0x7F < 0x800000 := by decide +kernel

theorem witness_I2cSignBit : mantissaField (i2cCompact (tc 0)) = 0#23 := by decide +kernel

theorem witness_inVR_bounds : InVR (-2 ^ 2039) ∧ InVR (2 ^ 2039 - 1) := by unfold InVR; decide +kernel

theorem witness_I2cClosedForm : InVR (2 ^ 2039 - 1) ∧ OVF (2 ^ 2039 - 1) = false := by unfold InVR; decide +kernel

theorem witness_Negation : InVR (2 ^ 2039 - 1) ∧ InVR (-(2 ^ 2039 - 1)) ∧ (2 ^ 2039 - 1 : Int) ≠ 0 := by
  unfold InVR; decide +kernel

theorem witness_no_overflow : i2cOvf (tc (2 ^ 2039 - 1)) = false ∧ i2cOvf (tc (-(2 ^ 2039 - 1))) = false := by
  decide +kernel

theorem witness_Lossless :
    (-0x7FFFFF : Int).natAbs ≤ 0x7FFFFF ∧ 0x800000 ≤ (0x800000 : Int).natAbs ∧ (-0xFFFFFF : Int).natAbs ≤ 0xFFFFFF := by
  decide

theorem witness_Inverse :
    canonical 0x01010000#32 = true ∧ canonical 0xFFFFFFFF#32 = true ∧ c2iValue 0x01010000#32 = c2iValue 0x01010000#32 ∧
    c2iValue (i2cCompact 1#2040) = 1#2040 ∧ c2iValue (i2cCompact (tc (-0x7FFFFF))) = tc (-0x7FFFFF) := by
  decide +kernel

theorem witness_Monotone : (0 : Int) ≤ 0 ∧ (0 : Int) ≤ 2 ^ 2039 - 1 ∧ (2 ^ 2039 - 1 : Int) < 2 ^ 2039 := by decide +kernel

/-- For `DecodeInvertsEncode`. -/
theorem witness_Decode : decode 1 (2 ^ 2040 - 1) = .ok (.i2c (tc (-1))) := by decide +kernel

theorem witness_StepRuns :
    let l : Line := ⟨['a'], .c2i, .literal 0xFFFFFFFF⟩
    (idle [.eval l]).script = .eval l :: [] ∧ (idle [.eval l]).lookup l.name = none ∧
    (idle [.eval l]).operandWord l = .ok 0xFFFFFFFF ∧
    decode (unitIndex l.op) 0xFFFFFFFF = .ok (.c2i 0xFFFFFFFF#32) := by decide +kernel

theorem witness_C2iLine :
    (idle [.eval ⟨['a'], .c2i, .literal (2 ^ 32 - 1)⟩]).lookup ['a'] = none ∧ (0 : Int) ≤ 2 ^ 32 - 1 ∧
    (2 ^ 32 - 1 : Int) < 2 ^ 32 ∧ (['b'] : Name) ≠ ['a'] := by decide

theorem witness_I2cLine :
    (idle [.eval ⟨['a'], .i2c, .literal (-2 ^ 2039)⟩]).lookup ['a'] = none ∧ InVR (-2 ^ 2039) ∧ InVR 5 ∧
    OVF 5 = false := by unfold InVR; decide +kernel

/-- Both inputs held at 0: the outputs follow. -/
theorem idle_outputsFollowInputs (script : List HostAction) : (idle script).OutputsFollowInputs := by
  have h : c2iValue 0#32 = 0#2040 ∧ i2cCompact 0#2040 = 0#32 ∧ i2cOvf 0#2040 = false := by decide +kernel
  refine ⟨fun c hc => ?_, fun w hw => ?_⟩
  · cases hc; exact h.1.symm
  · cases hw; exact ⟨h.2.1.symm, h.2.2.symm⟩

/-- A state that meets the invariant and has a C2I result bound. -/
theorem bound_inv (script : List HostAction) : (bound script).Inv := by
  have h : (0x8000 : Int) = sint (c2iValue 0x04000080#32) := by decide +kernel
  refine ⟨idle_outputsFollowInputs script, fun b hb => ?_, List.nodup_singleton _⟩
  rw [List.mem_singleton.1 hb]
  exact ⟨_, h⟩

theorem witness_Chained :
    let s := bound [.eval ⟨['b'], .i2c, .name ['a']⟩]
    s.Inv ∧ s.script = .eval ⟨['b'], .i2c, .name ['a']⟩ :: [] ∧ s.lookup ['b'] = none ∧
    s.lookup ['a'] = some ⟨['a'], 0x8000, none⟩ := ⟨bound_inv _, rfl, by decide, by decide⟩

/-- Each of the four refusals of `RefusalsLieOutsideTheBlock` is reached. -/
theorem witness_Refusals :
    refusedFor (bound [.eval ⟨['a'], .c2i, .literal 0⟩]) (.nameAlreadyBound ⟨['a'], .c2i, .literal 0⟩) = true ∧
    refusedFor (idle [.eval ⟨['a'], .i2c, .name ['b']⟩]) (.nameNotBound ⟨['a'], .i2c, .name ['b']⟩) = true ∧
    refusedFor (idle [.eval ⟨['a'], .c2i, .levels [.x]⟩]) (.inputNotBinary ⟨['a'], .c2i, .levels [.x]⟩) = true ∧
    refusedFor (idle [.eval ⟨['a'], .c2i, .literal (-1)⟩]) (.operandOutOfRange ⟨['a'], .c2i, .literal (-1)⟩) = true := by
  decide +kernel

/-- Pins with an undriven bit, and 32 binary pins. -/
theorem witness_NonBinary :
    Level.z ∈ List.replicate 31 Level.low ++ [.z] ∧ Level.x ∉ List.replicate 32 Level.high ∧
    Level.z ∉ List.replicate 32 Level.high ∧ (List.replicate 32 Level.high).length = portWidth .c2i ∧
    levelsNumber (List.replicate 32 Level.high) = some 0xFFFFFFFF ∧
    (idle [.eval ⟨['a'], .c2i, .levels (List.replicate 32 .high)⟩]).lookup ['a'] = none := by decide +kernel

theorem witness_Release :
    (idle [.release .c2i]).script = .release .c2i :: [] ∧ (idle [.release .i2c]).script = .release .i2c :: [] ∧
    (idle [.release .c2i]).encValue = .held 0#2040 ∧ (idle [.release .i2c]).decCompact = .held 0#32 := by decide +kernel

theorem witness_Idle :
    (idle []).OutputsFollowInputs ∧ (idle []).script = [] ∧ (idle []).decCompact = .held 0#32 ∧
    (idle []).encValue = .held 0#2040 := ⟨idle_outputsFollowInputs _, rfl, rfl, rfl⟩

/-- For `StepKeepsTheInvariant` and `StepOnlyAddsABinding`. -/
theorem witness_Step :
    (bound [.eval ⟨['b'], .c2i, .literal 5⟩]).Inv ∧
    nextMeets (bound [.eval ⟨['b'], .c2i, .literal 5⟩]) (fun _ => true) = true := ⟨bound_inv _, by decide +kernel⟩

theorem witness_WellFormedScript :
    let script : List HostAction := [.eval ⟨['b'], .i2c, .name ['a']⟩, .release .c2i, .eval ⟨['c'], .c2i, .name ['b']⟩]
    (bound script).Inv ∧ scriptWf (bound script).known (bound script).script = true := ⟨bound_inv _, by decide +kernel⟩

/-- The host's load runs from reset: each table row's word is the very next instruction. -/
theorem witness_LoadedWord :
    decodeTableWord 32 0xFFFFFFFF = some (.c2i 0xFFFFFFFF#32) ∧
    decodeTableWord 2040 (2 ^ 2039) = some (.i2c (tc (-2 ^ 2039))) ∧
    nextMeets (State.reset.withFetchWord 32 0x05123456) (fun t => t.decValue == tc 0x1234560000) = true ∧
    nextMeets (State.reset.withFetchWord 2040 0x1234560000) (fun t => t.encCompact == 0x05123456#32) = true := by
  decide +kernel

end Sys2Proof.Tests
end

section
/-! What an evaluation of one unit leaves unchanged (10_state.md R24). -/

namespace Sys2Proof.Machine

/-- Settles O36: C2I drives its own two ports and I2C its own three, and each driven output is a function of the operand
alone. -/
theorem unitsShareNoPort : Obligations.UnitsShareNoPort := by
  unfold Obligations.UnitsShareNoPort
  constructor
  · intro c s s'
    have output_same : (s.driveC2i c).decValue = (s'.driveC2i c).decValue := by
      rw [State.driveC2i_decValue, State.driveC2i_decValue]
    exact ⟨s.driveC2i c, s'.driveC2i c, exec_c2i c s, exec_c2i c s',
      State.driveC2i_encValue s c, State.driveC2i_encCompact s c, State.driveC2i_encOvf s c,
      State.driveC2i_script s c, State.driveC2i_bindings s c, State.driveC2i_freeIdx s c, output_same⟩
  · intro w s s'
    have compact_same : (s.driveI2c w).encCompact = (s'.driveI2c w).encCompact := by
      rw [State.driveI2c_encCompact, State.driveI2c_encCompact]
    have ovf_same : (s.driveI2c w).encOvf = (s'.driveI2c w).encOvf := by
      rw [State.driveI2c_encOvf, State.driveI2c_encOvf]
    exact ⟨s.driveI2c w, s'.driveI2c w, exec_i2c w s, exec_i2c w s',
      State.driveI2c_decCompact s w, State.driveI2c_decValue s w,
      State.driveI2c_script s w, State.driveI2c_bindings s w, State.driveI2c_freeIdx s w, compact_same, ovf_same⟩

end Sys2Proof.Machine
end

section
/-! Evaluations keep no memory between them: results depend on the operand only (20_memory.md R32). -/

namespace Sys2Proof.Machine

/-- No evaluation stops the machine (60_exceptions.md R100). -/
theorem exec_total (i : Instr) (s : State) : ∃ t, exec i s = .next t := by
  cases i with
  | c2i c => exact ⟨s.driveC2i c, exec_c2i c s⟩
  | i2c w => exact ⟨s.driveI2c w, exec_i2c w s⟩

theorem exec_c2i_eq_next {c : CompactWord} {s t : State} : exec (.c2i c) s = .next t ↔ t = s.driveC2i c := by
  rw [exec_c2i, Host.Outcome.next.injEq, eq_comm]

theorem exec_i2c_eq_next {w : ValueWord} {s t : State} : exec (.i2c w) s = .next t ↔ t = s.driveI2c w := by
  rw [exec_i2c, Host.Outcome.next.injEq, eq_comm]

/-- The driven outputs are functions of the operand alone, whatever state the evaluation starts from. -/
theorem sameResult_of_exec {i : Instr} {s s' t t' : State} (h : exec i s = .next t) (h' : exec i s' = .next t') :
    SameResult i t t' := by
  cases i with
  | c2i c =>
    obtain rfl := exec_c2i_eq_next.mp h
    obtain rfl := exec_c2i_eq_next.mp h'
    simp [SameResult]
  | i2c w =>
    obtain rfl := exec_i2c_eq_next.mp h
    obtain rfl := exec_i2c_eq_next.mp h'
    simp [SameResult]

@[simp] theorem State.driveC2i_driveC2i_same (s : State) (c : CompactWord) :
    (s.driveC2i c).driveC2i c = s.driveC2i c := rfl

@[simp] theorem State.driveI2c_driveI2c_same (s : State) (w : ValueWord) :
    (s.driveI2c w).driveI2c w = s.driveI2c w := rfl

/-- The two units drive different ports (10_state.md R24), so the order does not matter. -/
theorem State.driveI2c_driveC2i_comm (s : State) (c : CompactWord) (w : ValueWord) :
    (s.driveC2i c).driveI2c w = (s.driveI2c w).driveC2i c := rfl

theorem exec_repeat {i : Instr} {s t : State} (h : exec i s = .next t) : exec i t = .next t := by
  cases i with
  | c2i c =>
    obtain rfl := exec_c2i_eq_next.mp h
    rw [exec_c2i, State.driveC2i_driveC2i_same]
  | i2c w =>
    obtain rfl := exec_i2c_eq_next.mp h
    rw [exec_i2c, State.driveI2c_driveI2c_same]

/-- Settles O37: a result depends on the operand only, so neither the state before, nor an evaluation in between, nor a
repetition changes it; one evaluation of each unit commute as state changes. -/
theorem evaluationsCommuteAndRepeat : Obligations.EvaluationsCommuteAndRepeat := by
  unfold Obligations.EvaluationsCommuteAndRepeat
  refine ⟨fun i s s' => ?_, fun i j s => ?_, fun c w s => ?_, fun i s => ?_⟩
  · obtain ⟨t, ht⟩ := exec_total i s
    obtain ⟨t', ht'⟩ := exec_total i s'
    exact ⟨t, t', ht, ht', sameResult_of_exec ht ht'⟩
  · obtain ⟨t, ht⟩ := exec_total i s
    obtain ⟨u, hu⟩ := exec_total j t
    obtain ⟨t', ht'⟩ := exec_total j s
    obtain ⟨u', hu'⟩ := exec_total i t'
    exact ⟨t, u, t', u', ht, hu, ht', hu', sameResult_of_exec ht hu', sameResult_of_exec hu ht'⟩
  · refine ⟨s.driveC2i c, s.driveI2c w, (s.driveC2i c).driveI2c w, exec_c2i c s, exec_i2c w _, exec_i2c w s, ?_⟩
    rw [exec_c2i, State.driveI2c_driveC2i_comm]
  · obtain ⟨t, ht⟩ := exec_total i s
    exact ⟨t, ht, exec_repeat ht⟩

end Sys2Proof.Machine
end

section
/-! The three fields of a compact word: extraction by masks, and packing as its inverse (30_encoding.md R41, R42). -/

namespace Sys2Proof.Machine

/-- The sign mask is the single bit 23, so masking leaves it or nothing. -/
theorem signBit_iff_and_mask (c : CompactWord) : signBit c = true ↔ c &&& 0x00800000#32 ≠ 0#32 := by
  have mask_eq : 0x00800000#32 = BitVec.twoPow 32 23 := by decide
  have mask_ne_zero : BitVec.twoPow 32 23 ≠ 0#32 := by decide
  rw [mask_eq, BitVec.and_twoPow, signBit]
  cases c.getLsbD 23 <;> simp [mask_ne_zero]

/-- The mantissa mask is `2^23 - 1`, so masking is the remainder. -/
theorem mantissaField_toNat_eq_and_mask (c : CompactWord) :
    (mantissaField c).toNat = (c &&& 0x007FFFFF#32).toNat := by
  have mask_eq : (0x007FFFFF#32).toNat = 2 ^ 23 - 1 := by decide
  rw [mantissaField_toNat, BitVec.toNat_and, mask_eq, Nat.and_two_pow_sub_one_eq_mod]

/-- Packing as concatenation puts each field at its own place, so it is the OR of the shifted fields. -/
theorem packCompact_toNat_eq_or (s : BitVec 8) (g : Bool) (m : BitVec 23) :
    (packCompact s g m).toNat = (s.toNat <<< 24) ||| (g.toNat <<< 23) ||| m.toNat := by
  rw [packCompact, BitVec.toNat_append, BitVec.toNat_append, BitVec.toNat_ofBool, Nat.shiftLeft_or_distrib,
    ← Nat.shiftLeft_add]

@[simp] theorem sizeField_packCompact (s : BitVec 8) (g : Bool) (m : BitVec 23) :
    sizeField (packCompact s g m) = s := by
  apply BitVec.eq_of_toNat_eq
  have hg := g.toNat_lt
  have hm := m.isLt
  rw [sizeField_toNat, packCompact_toNat]
  omega

@[simp] theorem signBit_packCompact (s : BitVec 8) (g : Bool) (m : BitVec 23) :
    signBit (packCompact s g m) = g := by
  have hm := m.isLt
  have digit : (packCompact s g m).toNat / 2 ^ 23 % 2 = g.toNat := by
    have hg := g.toNat_lt
    rw [packCompact_toNat]
    omega
  rw [signBit_eq, digit]
  cases g <;> rfl

@[simp] theorem mantissaField_packCompact (s : BitVec 8) (g : Bool) (m : BitVec 23) :
    mantissaField (packCompact s g m) = m := by
  apply BitVec.eq_of_toNat_eq
  have hm := m.isLt
  rw [mantissaField_toNat, packCompact_toNat]
  omega

/-- The sign bit as a number is the word's binary digit 23. -/
theorem signBit_toNat (c : CompactWord) : (signBit c).toNat = c.toNat / 2 ^ 23 % 2 :=
  Nat.toNat_testBit c.toNat 23

/-- The three fields cover the word: quotient, digit and remainder add up to it. -/
@[simp] theorem packCompact_fields (c : CompactWord) :
    packCompact (sizeField c) (signBit c) (mantissaField c) = c := by
  apply BitVec.eq_of_toNat_eq
  rw [packCompact_toNat, sizeField_toNat, signBit_toNat, mantissaField_toNat]
  omega

/-- Settles O4: the masks read the fields, packing adds (or ORs) them at disjoint places, and each undoes the other. -/
theorem fieldsPartitionTheCompactWord : Obligations.FieldsPartitionTheCompactWord := by
  unfold Obligations.FieldsPartitionTheCompactWord
  constructor
  · intro c
    exact ⟨sizeField_toNat c, signBit_iff_and_mask c, mantissaField_toNat_eq_and_mask c, packCompact_fields c⟩
  · intro s g m
    exact ⟨packCompact_toNat s g m, packCompact_toNat_eq_or s g m,
      sizeField_packCompact s g m, signBit_packCompact s g m, mantissaField_packCompact s g m⟩

end Sys2Proof.Machine
end

section
/-! C2I on every operand: its fields as masks and shifts of the whole word, and the port's exactness
(40_c2i_decode.md R53, R58, R60, R64). -/

namespace Sys2Proof.Machine

/-! ### The fields as R53 reads them: masks and shifts of the word's number -/

theorem sizeField_toNat_eq_shiftRight (c : CompactWord) : (sizeField c).toNat = c.toNat >>> 24 := by
  rw [sizeField_toNat, Nat.shiftRight_eq_div_pow]

theorem mantissaField_toNat_eq_and (c : CompactWord) : (mantissaField c).toNat = c.toNat &&& 0x007FFFFF :=
  mantissaField_toNat_eq_and_mask c

theorem signBit_iff_and (c : CompactWord) : signBit c = true ↔ c.toNat &&& 0x00800000 ≠ 0 := by
  rw [signBit_iff_and_mask, ne_eq, ← BitVec.toNat_inj, BitVec.toNat_and]
  rfl

theorem c2iNegative_iff_fields (c : CompactWord) :
    c2iNegative c = true ↔ (mantissaField c).toNat ≠ 0 ∧ signBit c = true := by
  rw [c2iNegative_iff, mantissaField_toNat, signBit_eq, decide_eq_true_eq, and_comm]

theorem c2iNegative_iff_and (c : CompactWord) :
    c2iNegative c = true ↔ c.toNat &&& 0x007FFFFF ≠ 0 ∧ c.toNat &&& 0x00800000 ≠ 0 := by
  rw [c2iNegative_iff_fields, mantissaField_toNat_eq_and, signBit_iff_and]

/-! ### The magnitude, and that the port holds it -/

theorem c2iMagnitude_zero (size : Nat) : c2iMagnitude size 0 = 0 := by
  rw [c2iMagnitude]
  split
  · exact Nat.zero_shiftRight _
  · exact Nat.zero_shiftLeft _

/-- The right-shift branch (40_c2i_decode.md R57). -/
theorem c2iMagnitude_of_le {size : Nat} (h : size ≤ 3) (word : Nat) :
    c2iMagnitude size word = word >>> (8 * (3 - size)) :=
  if_pos h

/-- The left-shift branch (40_c2i_decode.md R58). -/
theorem c2iMagnitude_of_gt {size : Nat} (h : 3 < size) (word : Nat) :
    c2iMagnitude size word = word <<< (8 * (size - 3)) :=
  if_neg (Nat.not_le.mpr h)

/-- The widest magnitude has `23 + 2016` bits (40_c2i_decode.md R60). -/
theorem c2iMagnitude_lt {size word : Nat} (hs : size ≤ 255) (hw : word < 2 ^ 23) :
    c2iMagnitude size word < 2 ^ 2039 := by
  by_cases h : size ≤ 3
  · calc c2iMagnitude size word = word >>> (8 * (3 - size)) := c2iMagnitude_of_le h word
      _ ≤ word := Nat.shiftRight_le _ _
      _ < 2 ^ 23 := hw
      _ ≤ 2 ^ 2039 := pow_le_pow_right₀ (by decide) (by decide)
  · calc c2iMagnitude size word = word <<< (8 * (size - 3)) := c2iMagnitude_of_gt (Nat.not_le.mp h) word
      _ < 2 ^ (23 + 8 * (size - 3)) := Nat.shiftLeft_lt hw
      _ ≤ 2 ^ 2039 := pow_le_pow_right₀ (by decide) (by omega)

/-- Negation does not change the magnitude. -/
theorem natAbs_c2iResult (c : CompactWord) :
    (c2iResult c).natAbs = c2iMagnitude (sizeField c).toNat (mantissaField c).toNat := by
  rw [c2iResult]
  split
  · rw [Int.natAbs_neg, Int.natAbs_natCast]
  · exact Int.natAbs_natCast _

theorem inVR_of_natAbs_lt {x : Int} (h : x.natAbs < 2 ^ 2039) : InVR x := by
  have cast_bound : ((2 ^ 2039 : Nat) : Int) = 2 ^ 2039 := Nat.cast_pow 2 2039
  have hx : |x| < 2 ^ 2039 := by
    rw [Int.abs_eq_natAbs, ← cast_bound]
    exact Int.ofNat_lt.mpr h
  obtain ⟨lower, upper⟩ := abs_lt.mp hx
  exact ⟨lower.le, upper⟩

theorem c2iResult_inVR (c : CompactWord) : InVR (c2iResult c) := by
  apply inVR_of_natAbs_lt
  rw [natAbs_c2iResult]
  exact c2iMagnitude_lt (Nat.le_of_lt_succ (sizeField c).isLt) (mantissaField c).isLt

/-- The port stands for the result exactly (40_c2i_decode.md R60, R62). -/
theorem sint_c2iValue (c : CompactWord) : sint (c2iValue c) = c2iResult c := sint_tc (c2iResult_inVR c)

theorem natAbs_sint_c2iValue (c : CompactWord) :
    (sint (c2iValue c)).natAbs = c2iMagnitude (sizeField c).toNat (mantissaField c).toNat := by
  rw [sint_c2iValue, natAbs_c2iResult]

theorem c2iResult_eq_zero {c : CompactWord} (h : mantissaField c = 0#23) : c2iResult c = 0 := by
  rw [← Int.natAbs_eq_zero, natAbs_c2iResult, h]
  exact c2iMagnitude_zero _

/-! ### The statements -/

/-- Settles O5: each field is the mask or shift that R53 writes, so the unit's result is R53's, and C2I drives only its
own two ports. -/
theorem c2iDrivesTheDecodedInteger : Obligations.C2iDrivesTheDecodedInteger := by
  unfold Obligations.C2iDrivesTheDecodedInteger
  intro c s size word mag result
  have mag_eq : (c2iMagnitude (sizeField c).toNat (mantissaField c).toNat : Int) = mag := by
    rw [sizeField_toNat_eq_shiftRight, mantissaField_toNat_eq_and]
    rfl
  have result_eq : c2iResult c = result := by
    simp only [c2iResult, mag_eq, c2iNegative_iff_and]
    rfl
  rw [exec_c2i, State.driveC2i, c2iValue, result_eq]

/-- Settles O8: above size 3 the port's magnitude is the mantissa shifted left by `8 * (size - 3)` bits, and a left
shift moves every bit up and fills with zeros. -/
theorem c2iLeftShiftBranchKeepsEveryBit : Obligations.C2iLeftShiftBranchKeepsEveryBit := by
  unfold Obligations.C2iLeftShiftBranchKeepsEveryBit
  intro c hsize k mag
  have size_lt := (sizeField c).isLt
  have mag_eq : mag = (mantissaField c).toNat <<< (8 * k) :=
    (natAbs_sint_c2iValue c).trans (c2iMagnitude_of_gt hsize _)
  refine ⟨by omega, by omega, ?_, fun i _ => ?_, fun i hi => ?_⟩
  · rw [mag_eq, Nat.shiftLeft_eq, byteShift_eq]
  · rw [mag_eq, Nat.testBit_shiftLeft, Nat.add_sub_cancel_left, decide_eq_true (Nat.le_add_right _ _), Bool.true_and,
      BitVec.testBit_toNat]
  · rw [mag_eq, Nat.testBit_shiftLeft, decide_eq_false (Nat.not_le.mpr hi), Bool.false_and]

/-- Settles O12: a zero mantissa has a zero magnitude at every size, and zero has no sign. -/
theorem c2iZeroMantissaGivesZero : Obligations.C2iZeroMantissaGivesZero := by
  unfold Obligations.C2iZeroMantissaGivesZero
  intro c s hword
  have value_eq : c2iValue c = 0#2040 := by
    rw [c2iValue, c2iResult_eq_zero hword]
    exact BitVec.ofInt_ofNat 2040 0
  rw [exec_c2i, State.driveC2i, value_eq]

end Sys2Proof.Machine
end

section
/-! I2C on every operand: the byte length of the magnitude, and the driven word as arithmetic on the operand
(41_i2c_encode.md R67, R69). -/

namespace Sys2Proof.Machine

/-! ### The byte length -/

/-- The byte length rounds the bit length up to whole bytes. -/
theorem byteLen_bounds {v : Nat} (hv : v ≠ 0) :
    1 ≤ byteLen v ∧ 8 * (byteLen v - 1) < bitLength v ∧ bitLength v ≤ 8 * byteLen v := by
  have hpos := bitLength_pos hv
  unfold byteLen
  omega

theorem pow_byteLen_pred_le {v : Nat} (hv : v ≠ 0) : 256 ^ (byteLen v - 1) ≤ v := by
  obtain ⟨-, lower, -⟩ := byteLen_bounds hv
  calc 256 ^ (byteLen v - 1) = 2 ^ (8 * (byteLen v - 1)) := byteShift_eq _
    _ ≤ 2 ^ (bitLength v - 1) := Nat.pow_le_pow_right (by decide) (Nat.le_sub_one_of_lt lower)
    _ ≤ v := (bitLength_spec hv).1

theorem lt_pow_byteLen {v : Nat} (hv : v ≠ 0) : v < 256 ^ byteLen v := by
  obtain ⟨-, -, upper⟩ := byteLen_bounds hv
  calc v < 2 ^ bitLength v := (bitLength_spec hv).2
    _ ≤ 2 ^ (8 * byteLen v) := Nat.pow_le_pow_right (by decide) upper
    _ = 256 ^ byteLen v := (byteShift_eq _).symm

theorem byteLen_le {v n : Nat} (h : v < 256 ^ n) : byteLen v ≤ n := by
  have bits : bitLength v ≤ 8 * n := bitLength_le (byteShift_eq n ▸ h)
  unfold byteLen
  omega

theorem lt_byteLen {v n : Nat} (h : 256 ^ n ≤ v) : n < byteLen v := by
  have bits : 8 * n < bitLength v := lt_bitLength (byteShift_eq n ▸ h)
  unfold byteLen
  omega

/-- The magnitude `2^2039` of the least operand still fits 255 bytes. -/
theorem byteLen_natAbs_sint_le (w : ValueWord) : byteLen (sint w).natAbs ≤ 255 := by
  apply byteLen_le
  calc (sint w).natAbs ≤ 2 ^ 2039 := natAbs_sint_le w
    _ < 2 ^ (8 * 255) := pow_lt_pow_right₀ one_lt_two (by decide)
    _ = 256 ^ 255 := (byteShift_eq 255).symm

/-! ### The steps of R67 as quotients and remainders -/

theorem renormalises_iff (m24 : Nat) : renormalises m24 = true ↔ m24 / 2 ^ 23 % 2 = 1 := by
  rw [renormalises, Nat.testBit_eq_decide_div_mod_eq, decide_eq_true_eq]

theorem i2cMantissa_eq (v : Nat) :
    i2cMantissa v = if i2cWindow v / 2 ^ 23 % 2 = 1 then i2cWindow v / 2 ^ 8 else i2cWindow v := by
  simp only [i2cMantissa, renormalises_iff, Nat.shiftRight_eq_div_pow]

theorem i2cSize_eq (v : Nat) :
    i2cSize v = if i2cWindow v / 2 ^ 23 % 2 = 1 then byteLen v + 1 else byteLen v := by
  simp only [i2cSize, renormalises_iff]

theorem i2cMantissaField_eq_mod (v : Nat) : i2cMantissaField v = i2cMantissa v % 2 ^ 23 :=
  Nat.and_two_pow_sub_one_eq_mod (i2cMantissa v) 23

theorem i2cMantissaField_lt (v : Nat) : i2cMantissaField v < 2 ^ 23 := by
  rw [i2cMantissaField_eq_mod]
  exact Nat.mod_lt _ (Nat.two_pow_pos 23)

theorem i2cSign_iff {x : Int} {m23 : Nat} : i2cSign x m23 = true ↔ x < 0 ∧ m23 ≠ 0 := by
  rw [i2cSign, Bool.and_eq_true, decide_eq_true_eq, bne_iff_ne]

theorem i2cSign_toNat (x : Int) (m23 : Nat) : (i2cSign x m23).toNat = if x < 0 ∧ m23 ≠ 0 then 1 else 0 := by
  simp only [Bool.toNat, Bool.cond_eq_ite, i2cSign_iff]

theorem ovfOfSize_eq_decide (sizef : Nat) : ovfOfSize sizef = decide (sizef / 256 % 2 = 1) :=
  Nat.testBit_eq_decide_div_mod_eq

/-- Renormalising adds at most one to the byte length. -/
theorem i2cSize_natAbs_sint_le (w : ValueWord) : i2cSize (sint w).natAbs ≤ 256 := by
  have hlen := byteLen_natAbs_sint_le w
  rw [i2cSize]
  split <;> omega

/-! ### The driven word -/

/-- The exponent field is the low byte of the final size; for 256, the one size that does not fit, that byte is the
spec's `ENC_OVF_EXP` (decision D5). -/
theorem exponentField_toNat {sizef : Nat} (h : sizef ≤ 256) : (exponentField sizef).toNat = sizef % 256 := by
  rw [exponentField]
  split
  · exact BitVec.toNat_ofNat sizef 8
  · obtain rfl : sizef = 256 := by omega
    rfl

theorem i2cCompact_toNat (w : ValueWord) :
    (i2cCompact w).toNat =
      i2cSize (sint w).natAbs % 256 * 2 ^ 24 +
      (i2cSign (sint w) (i2cMantissaField (sint w).natAbs)).toNat * 2 ^ 23 + i2cMantissaField (sint w).natAbs := by
  rw [i2cCompact, packCompact_toNat, exponentField_toNat (i2cSize_natAbs_sint_le w), BitVec.toNat_ofNat,
    Nat.mod_eq_of_lt (i2cMantissaField_lt _)]

/-! ### The statements -/

/-- Settles O17: each step of the pseudocode is a step of the unit, the final size is at most 256, so its low byte is
the exponent field and its bit 8 is `enc_ovf`; I2C drives only its own three ports. -/
theorem i2cDrivesTheEncodedWord : Obligations.I2cDrivesTheEncodedWord := by
  unfold Obligations.I2cDrivesTheEncodedWord
  intro w s x v size m24 mant sizef m23 g
  have m24_eq : i2cWindow v = m24 := i2cWindow_eq v
  have mant_eq : i2cMantissa v = mant := by rw [i2cMantissa_eq, m24_eq]
  have sizef_eq : i2cSize v = sizef := by rw [i2cSize_eq, m24_eq]; rfl
  have m23_eq : i2cMantissaField v = m23 := by rw [i2cMantissaField_eq_mod, mant_eq]
  have g_eq : (i2cSign x m23).toNat = g := i2cSign_toNat x m23
  have compact_eq : i2cCompact w = BitVec.ofNat 32 (sizef % 256 * 2 ^ 24 + g * 2 ^ 23 + m23) := by
    rw [← sizef_eq, ← g_eq, ← m23_eq, ← i2cCompact_toNat, BitVec.ofNat_toNat, BitVec.setWidth_eq]
  have ovf_eq : i2cOvf w = decide (sizef / 256 % 2 = 1) := by
    rw [i2cOvf, sizef_eq, ovfOfSize_eq_decide]
  rw [exec_i2c, State.driveI2c, compact_eq, ovf_eq]

/-- Settles O19: the byte length rounds the bit length up to whole bytes, which are the powers of 256; a magnitude on
the port is at most `2^2039 < 256^255`. -/
theorem byteLengthOfTheMagnitude : Obligations.ByteLengthOfTheMagnitude := by
  unfold Obligations.ByteLengthOfTheMagnitude
  refine ⟨fun v hv => ?_, bitLength_zero, byteLen_zero, fun w => ⟨byteLen_natAbs_sint_le w, fun hw => ?_⟩⟩
  · obtain ⟨positive, lower, upper⟩ := byteLen_bounds hv
    exact ⟨positive, lower, upper, pow_byteLen_pred_le hv, lt_pow_byteLen hv⟩
  · exact Nat.le_antisymm (byteLen_natAbs_sint_le w) (lt_byteLen hw)

end Sys2Proof.Machine
end

section
/-! The list of exception causes is empty (60_exceptions.md R100). -/

namespace Sys2Proof.Machine

/-- Settles O35: each unit drives its outputs for every operand, and `Fault` has no constructor. -/
theorem neitherOperationCanFail : Obligations.NeitherOperationCanFail := by
  unfold Obligations.NeitherOperationCanFail
  exact ⟨exec_total, fun f => nomatch f⟩

end Sys2Proof.Machine
end

section
/-! Both units' shifters as one quotient by a power of 256, and the final size and mantissa as such quotients
(40_c2i_decode.md R56, 41_i2c_encode.md R71 to R79, R84). -/

namespace Sys2Proof.Machine

/-! ### The two shifters -/

/-- The window shifter keeps the three bytes below byte `size` (41_i2c_encode.md R73). -/
theorem windowShift_eq_div (size v : Nat) : windowShift size v = v * 256 ^ 3 / 256 ^ size := by
  rw [windowShift, Nat.shiftLeft_eq, Nat.shiftRight_eq_div_pow, ← byteShift_eq, ← byteShift_eq]
  split
  next h =>
    rw [← pow_sub_mul_pow 256 h, ← mul_assoc, Nat.mul_div_cancel _ (by positivity)]
  next h =>
    rw [← pow_mul_pow_sub 256 (Nat.le_of_not_le h), ← Nat.div_div_eq_div_mul, Nat.mul_div_cancel _ (by positivity)]

theorem c2iMagnitude_eq_div (size word : Nat) : c2iMagnitude size word = word * 256 ^ size / 256 ^ 3 := by
  rw [c2iMagnitude_eq]
  split
  next h => rw [← pow_sub_mul_pow 256 h, Nat.mul_div_mul_right _ _ (by positivity)]
  next h =>
    rw [← pow_sub_mul_pow 256 (Nat.le_of_not_le h), ← mul_assoc, Nat.mul_div_cancel _ (by positivity)]

/-- One more byte of size drops the window's low byte. -/
theorem windowShift_succ (size v : Nat) : windowShift (size + 1) v = windowShift size v / 256 := by
  rw [windowShift_eq_div, windowShift_eq_div, pow_succ 256 size, Nat.div_div_eq_div_mul]

theorem le_windowShift_iff {k size v : Nat} : k ≤ windowShift size v ↔ k * 256 ^ size ≤ v * 256 ^ 3 := by
  rw [windowShift_eq_div, Nat.le_div_iff_mul_le (by positivity)]

theorem windowShift_lt_iff {k size v : Nat} : windowShift size v < k ↔ v * 256 ^ 3 < k * 256 ^ size := by
  rw [windowShift_eq_div, Nat.div_lt_iff_lt_mul (by positivity)]

theorem windowShift_mono (size : Nat) {v v' : Nat} (h : v ≤ v') : windowShift size v ≤ windowShift size v' := by
  rw [windowShift_eq_div, windowShift_eq_div]
  exact Nat.div_le_div_right (Nat.mul_le_mul_right _ h)

/-! ### The final size: the byte length of twice the number -/

theorem bitLength_two_mul {v : Nat} (hv : v ≠ 0) : bitLength (2 * v) = bitLength v + 1 := by
  rw [bitLength, bitLength, if_neg hv, if_neg (by omega), Nat.log2_two_mul hv]

/-- The final size leaves room for the sign above the magnitude: it is the byte length with one more bit. -/
theorem SF_eq_byteLen_two_mul (v : Nat) : SF v = byteLen (2 * v) := by
  by_cases hv : v = 0
  · subst hv; rfl
  · rw [SF, if_neg hv, byteLen, bitLength_two_mul hv]
    omega

theorem SF_pos {v : Nat} (hv : v ≠ 0) : 1 ≤ SF v := by
  rw [SF, if_neg hv]
  exact Nat.le_add_left 1 _

theorem pow_SF_pred_le {v : Nat} (hv : v ≠ 0) : 256 ^ (SF v - 1) ≤ 2 * v := by
  rw [SF_eq_byteLen_two_mul]
  exact pow_byteLen_pred_le (by omega)

theorem two_mul_lt_pow_SF (v : Nat) : 2 * v < 256 ^ SF v := by
  by_cases hv : v = 0
  · subst hv; decide
  · rw [SF_eq_byteLen_two_mul]
    exact lt_pow_byteLen (by omega)

theorem SF_le {v n : Nat} (h : 2 * v < 256 ^ n) : SF v ≤ n := by
  rw [SF_eq_byteLen_two_mul]
  exact byteLen_le h

theorem lt_SF {v n : Nat} (h : 256 ^ n ≤ 2 * v) : n < SF v := by
  rw [SF_eq_byteLen_two_mul]
  exact lt_byteLen h

theorem SF_mono {v v' : Nat} (h : v ≤ v') : SF v ≤ SF v' :=
  SF_le (lt_of_le_of_lt (Nat.mul_le_mul_left 2 h) (two_mul_lt_pow_SF v'))

/-- `256 ^ (s - 1) ≤ 2 v < 256 ^ s`, the lower bound multiplied out. -/
theorem SF_eq_of_bounds {v s : Nat} (lower : 256 ^ s ≤ 512 * v) (upper : 2 * v < 256 ^ s) : SF v = s := by
  cases s with
  | zero => exact Nat.le_zero.mp (SF_le upper)
  | succ n =>
    rw [pow_succ] at lower
    exact Nat.le_antisymm (SF_le upper) (lt_SF (by omega))

theorem pow_SF_le {v : Nat} (hv : v ≠ 0) : 256 ^ SF v ≤ 512 * v := by
  have lower := pow_SF_pred_le hv
  rw [← pow_sub_mul_pow 256 (SF_pos hv), pow_one]
  omega

/-! ### The final mantissa -/

theorem MF_eq_windowShift (v : Nat) : MF v = windowShift (SF v) v := by
  rw [MF, windowShift, Nat.shiftLeft_eq, Nat.shiftRight_eq_div_pow, ← byteShift_eq, ← byteShift_eq]

theorem MF_zero : MF 0 = 0 := rfl

theorem MF_lt (v : Nat) : MF v < 2 ^ 23 := by
  have upper := two_mul_lt_pow_SF v
  rw [MF_eq_windowShift, windowShift_lt_iff]
  omega

theorem le_MF {v : Nat} (hv : v ≠ 0) : 0x8000 ≤ MF v := by
  have lower := pow_SF_le hv
  rw [MF_eq_windowShift, le_windowShift_iff]
  omega

theorem MF_eq_zero_iff {v : Nat} : MF v = 0 ↔ v = 0 := by
  constructor
  · intro h
    by_contra hv
    have := le_MF hv
    omega
  · rintro rfl
    exact MF_zero

/-! ### The stepwise intermediate, and that renormalising gives the final size and mantissa -/

theorem i2cWindow_lt (v : Nat) : i2cWindow v < 2 ^ 24 := by
  by_cases hv : v = 0
  · subst hv; decide
  · have upper := lt_pow_byteLen hv
    rw [i2cWindow, windowShift_lt_iff]
    omega

theorem le_i2cWindow {v : Nat} (hv : v ≠ 0) : 0x010000 ≤ i2cWindow v := by
  obtain ⟨positive, -, -⟩ := byteLen_bounds hv
  have lower := pow_byteLen_pred_le hv
  rw [i2cWindow, le_windowShift_iff, ← pow_sub_mul_pow 256 positive, pow_one]
  omega

theorem i2cWindow_eq_zero_iff {v : Nat} : i2cWindow v = 0 ↔ v = 0 := by
  constructor
  · intro h
    by_contra hv
    have := le_i2cWindow hv
    omega
  · rintro rfl
    rfl

/-- The intermediate has 24 bits, so bit 23 is its top bit. -/
theorem renormalises_i2cWindow_iff (v : Nat) : renormalises (i2cWindow v) = true ↔ 0x800000 ≤ i2cWindow v := by
  have upper := i2cWindow_lt v
  rw [renormalises_iff]
  omega

/-- Renormalising happens when twice the number needs one more byte. -/
theorem le_i2cWindow_iff (v : Nat) : 0x800000 ≤ i2cWindow v ↔ 256 ^ byteLen v ≤ 2 * v := by
  rw [i2cWindow, le_windowShift_iff]
  omega

theorem i2cSize_eq_SF (v : Nat) : i2cSize v = SF v := by
  by_cases hv : v = 0
  · subst hv; decide
  · have below := lt_pow_byteLen hv
    obtain ⟨positive, -, -⟩ := byteLen_bounds hv
    have above := pow_byteLen_pred_le hv
    rw [i2cSize]
    simp only [renormalises_i2cWindow_iff, le_i2cWindow_iff]
    split
    next h => exact (SF_eq_of_bounds (by rw [pow_succ]; omega) (by rw [pow_succ]; omega)).symm
    next h =>
      refine (SF_eq_of_bounds ?_ (by omega)).symm
      rw [← pow_sub_mul_pow 256 positive, pow_one]
      omega

theorem i2cMantissa_eq_MF (v : Nat) : i2cMantissa v = MF v := by
  rw [MF_eq_windowShift, ← i2cSize_eq_SF, i2cMantissa, i2cSize]
  split
  · rw [windowShift_succ, Nat.shiftRight_eq_div_pow]; rfl
  · rfl

/-- The mask removes nothing (41_i2c_encode.md R79). -/
theorem i2cMantissaField_eq_MF (v : Nat) : i2cMantissaField v = MF v := by
  rw [i2cMantissaField_eq_mod, i2cMantissa_eq_MF, Nat.mod_eq_of_lt (MF_lt v)]

/-! ### The statements on the intermediate values -/

theorem sint_eq_zero_iff {w : ValueWord} : sint w = 0 ↔ w = 0#2040 := by
  rw [sint, ← BitVec.toInt_zero (w := 2040), BitVec.toInt_inj]

/-- Settles O21: the window's bounds are the byte length's, and the final size and mantissa are the closed form's. -/
theorem i2cIntermediateRanges : Obligations.I2cIntermediateRanges := by
  unfold Obligations.I2cIntermediateRanges
  intro w v
  have zero_iff : v = 0 ↔ w = 0#2040 := Int.natAbs_eq_zero.trans sint_eq_zero_iff
  refine ⟨i2cWindow_lt v, i2cWindow_eq_zero_iff.trans zero_iff, le_i2cWindow, ?_, fun hv => ?_, i2cSize_eq_SF v,
    i2cSize_natAbs_sint_le w⟩
  · rw [i2cMantissaField_eq_MF, i2cMantissa_eq_MF]
  · rw [i2cMantissaField_eq_MF]
    exact ⟨le_MF hv, Nat.le_of_lt_succ (MF_lt v)⟩

/-- The highest non-zero byte is `v / 256 ^ (byteLen v - 1)`; doubling carries out of it when its top bit is set. -/
theorem le_i2cWindow_iff_topByte (v : Nat) :
    0x800000 ≤ i2cWindow v ↔ v ≠ 0 ∧ 0x80 ≤ v / 256 ^ (byteLen v - 1) := by
  by_cases hv : v = 0
  · subst hv; decide
  · obtain ⟨positive, -, -⟩ := byteLen_bounds hv
    rw [le_i2cWindow_iff, Nat.le_div_iff_mul_le (by positivity), ← pow_sub_mul_pow 256 positive, pow_one]
    omega

/-- Settles O22: renormalising is decided by bit 23, the top bit of the intermediate, and drops its low byte. -/
theorem i2cRenormalisesOnTheTopBit : Obligations.I2cRenormalisesOnTheTopBit := by
  unfold Obligations.I2cRenormalisesOnTheTopBit
  intro v
  refine ⟨fun h => ?_, fun h => ?_, le_i2cWindow_iff_topByte v, ?_⟩
  · have upper := i2cWindow_lt v
    have renorm := (renormalises_i2cWindow_iff v).mpr h
    have mant_eq : i2cMantissa v = i2cWindow v / 256 := by
      rw [i2cMantissa, if_pos renorm, Nat.shiftRight_eq_div_pow]
    refine ⟨mant_eq, if_pos renorm, ?_, ?_⟩ <;> omega
  · have no_renorm : ¬ renormalises (i2cWindow v) = true := by
      rw [renormalises_i2cWindow_iff]; omega
    exact ⟨if_neg no_renorm, if_neg no_renorm⟩
  · rw [i2cMantissa_eq_MF]
    exact MF_lt v

end Sys2Proof.Machine
end

section
/-! What C2I drives: its closed form, its sign, its range and its bits on the port
(40_c2i_decode.md R55 to R66, 42_codec_laws.md R87). -/

namespace Sys2Proof.Machine

/-! ### The result as a signed magnitude -/

theorem c2iResult_eq_DEC (c : CompactWord) : c2iResult c = DEC c.toNat := by
  simp only [c2iResult, DEC, MAG_eq_c2iMagnitude, c2iNegative_iff]

/-- Settles O14: the port holds the result exactly, and the stepwise result is the closed form's. -/
theorem c2iIsItsClosedForm : Obligations.C2iIsItsClosedForm := by
  unfold Obligations.C2iIsItsClosedForm
  intro c
  rw [sint_c2iValue, c2iResult_eq_DEC]

/-- The test for a zero mantissa does not matter to the result: minus zero is zero. -/
theorem c2iResult_eq_signed (c : CompactWord) :
    c2iResult c = if signBit c then -(MAG c.toNat : Int) else MAG c.toNat := by
  by_cases hword : mantissaField c = 0#23
  · have mag_zero : MAG c.toNat = 0 := by
      rw [MAG_eq_c2iMagnitude, hword]; exact c2iMagnitude_zero _
    rw [c2iResult_eq_zero hword, mag_zero]
    simp
  · have negative_eq : c2iNegative c = signBit c := by simp [c2iNegative, hword]
    rw [c2iResult, negative_eq, MAG_eq_c2iMagnitude]

theorem sint_c2iValue_signed (c : CompactWord) :
    sint (c2iValue c) = if signBit c then -(MAG c.toNat : Int) else MAG c.toNat := by
  rw [sint_c2iValue, c2iResult_eq_signed]

theorem c2iValue_eq_zero_iff (c : CompactWord) : c2iValue c = 0#2040 ↔ MAG c.toNat = 0 := by
  rw [← sint_eq_zero_iff, sint_c2iValue_signed]
  split <;> omega

/-! ### The sign bit -/

@[simp] theorem sizeField_xor_signMask (c : CompactWord) : sizeField (c ^^^ 0x00800000#32) = sizeField c := by
  simp [sizeField, BitVec.extractLsb'_xor]

@[simp] theorem mantissaField_xor_signMask (c : CompactWord) :
    mantissaField (c ^^^ 0x00800000#32) = mantissaField c := by
  simp [mantissaField, BitVec.extractLsb'_xor]

@[simp] theorem signBit_xor_signMask (c : CompactWord) : signBit (c ^^^ 0x00800000#32) = !signBit c := by
  simp [signBit]

theorem MAG_xor_signMask (c : CompactWord) : MAG (c ^^^ 0x00800000#32).toNat = MAG c.toNat := by
  rw [MAG_eq_c2iMagnitude, MAG_eq_c2iMagnitude, sizeField_xor_signMask, mantissaField_xor_signMask]

/-- Settles O15: the mask touches bit 23 alone, and bit 23 alone decides the sign. -/
theorem flippingTheSignBitNegates : Obligations.FlippingTheSignBitNegates := by
  unfold Obligations.FlippingTheSignBitNegates
  intro c
  rw [sint_c2iValue_signed, sint_c2iValue_signed, MAG_xor_signMask, signBit_xor_signMask]
  cases signBit c <;> simp

/-- Settles O6: the predicate reads the two fields by their masks; a zero magnitude has no sign. -/
theorem signPredicateReadsTheUnshiftedMantissa : Obligations.SignPredicateReadsTheUnshiftedMantissa := by
  unfold Obligations.SignPredicateReadsTheUnshiftedMantissa
  refine ⟨fun c => ?_, fun c h => ?_, by decide, by decide⟩
  · rw [c2iNegative_iff_fields, signBit_iff_and_mask, mantissaField_toNat_eq_and_mask, ne_eq (_ &&& 0x007FFFFF#32),
      ← BitVec.toNat_inj]
    rfl
  · rw [c2iValue_eq_zero_iff, MAG_eq_c2iMagnitude, h]

/-! ### When the result is zero -/

/-- A magnitude is zero when the mantissa has no bit above the ones shifted out (40_c2i_decode.md R63). -/
theorem c2iMagnitude_eq_zero_iff {size word : Nat} (hword : word < 2 ^ 23) :
    c2iMagnitude size word = 0 ↔
      word = 0 ∨ size = 0 ∨ (size = 1 ∧ word < 0x010000) ∨ (size = 2 ∧ word < 0x000100) := by
  rw [c2iMagnitude_eq_div, Nat.div_eq_zero_iff_lt (by positivity)]
  match size with
  | 0 | 1 | 2 => omega
  | n + 3 =>
    have pos : 0 < 256 ^ n := by positivity
    rw [pow_add]
    constructor
    · intro h
      have : word * 256 ^ n < 1 := by
        rw [← mul_assoc] at h
        omega
      exact .inl (by simpa [pos.ne'] using this)
    · rintro (rfl | h | h | h) <;> omega

/-- Settles O13: the result is the signed magnitude, and the fields say when the magnitude is zero. -/
theorem c2iSignOfTheResult : Obligations.C2iSignOfTheResult := by
  unfold Obligations.C2iSignOfTheResult
  intro c
  refine ⟨?_, ?_, c2iValue_eq_zero_iff c, ?_⟩
  · rw [sint_c2iValue_signed]
    cases signBit c <;> simp [Nat.pos_iff_ne_zero]
  · rw [sint_c2iValue_signed]
    cases signBit c <;> simp [Nat.pos_iff_ne_zero]
  · rw [c2iValue_eq_zero_iff, MAG_eq_c2iMagnitude, c2iMagnitude_eq_zero_iff (mantissaField c).isLt]
    simp only [← BitVec.toNat_inj, BitVec.toNat_ofNat]

/-! ### Branches and range -/

/-- A slice of the mantissa that reaches its top bit is a right shift. -/
theorem extractLsb'_toNat_of_reaches_top (word : BitVec 23) {start len : Nat} (h : 23 ≤ start + len) :
    (word.extractLsb' start len).toNat = word.toNat >>> start := by
  have shifted_lt : word.toNat >>> start < 2 ^ len := by
    rw [Nat.shiftRight_eq_div_pow, Nat.div_lt_iff_lt_mul (by positivity), ← pow_add]
    exact lt_of_lt_of_le word.isLt (pow_le_pow_right₀ (by decide) (by omega))
  rw [BitVec.extractLsb'_toNat, Nat.mod_eq_of_lt shifted_lt]

/-- Settles O7: a right shift by whole bytes drops them, and size 0 shifts out all 23 bits. -/
theorem c2iRightShiftBranch : Obligations.C2iRightShiftBranch := by
  unfold Obligations.C2iRightShiftBranch
  intro c
  refine ⟨fun h => ?_, fun h => ?_, fun h => ?_, fun h => ?_⟩
  · rw [natAbs_sint_c2iValue, h, c2iMagnitude_of_le (by decide)]
    rfl
  · rw [natAbs_sint_c2iValue, h, c2iMagnitude_of_le (by decide), extractLsb'_toNat_of_reaches_top _ (by decide)]
  · rw [natAbs_sint_c2iValue, h, c2iMagnitude_of_le (by decide), extractLsb'_toNat_of_reaches_top _ (by decide)]
  · rw [c2iValue_eq_zero_iff, MAG_eq_c2iMagnitude, c2iMagnitude_eq_zero_iff (mantissaField c).isLt]
    exact .inr (.inl h)

theorem c2iMagnitude_le_mul (size word : Nat) : c2iMagnitude size word ≤ word * 256 ^ (size - 3) := by
  rw [c2iMagnitude_eq]
  split
  · exact (Nat.div_le_self _ _).trans (Nat.le_mul_of_pos_right _ (by positivity))
  · exact le_rfl

/-- Settles O10: the magnitude is at most all 23 mantissa bits at the largest shift, which is at size 255. -/
theorem c2iResultFitsThePort : Obligations.C2iResultFitsThePort := by
  unfold Obligations.C2iResultFitsThePort
  refine ⟨fun c => ⟨sint_c2iValue c, ?_⟩, by decide +kernel⟩
  have hsize := (sizeField c).isLt
  have mantissa_le : (mantissaField c).toNat ≤ 2 ^ 23 - 1 := Nat.le_sub_one_of_lt (mantissaField c).isLt
  have shift_le : 256 ^ ((sizeField c).toNat - 3) ≤ 2 ^ 2016 := by
    rw [byteShift_eq]
    exact pow_le_pow_right₀ (by decide) (by omega)
  have bound_eq : (2 ^ 23 - 1) * 2 ^ 2016 = 2 ^ 2039 - 2 ^ 2016 := by
    rw [Nat.sub_mul, ← pow_add, one_mul]
  rw [natAbs_c2iResult, ← bound_eq]
  exact (c2iMagnitude_le_mul _ _).trans (Nat.mul_le_mul mantissa_le shift_le)

/-! ### The bits on the port -/

theorem ofInt_two_pow (j : Nat) : BitVec.ofInt 2040 ((2 ^ j : Nat) : Int) = BitVec.twoPow 2040 j := by
  rw [BitVec.ofInt_natCast]
  apply BitVec.eq_of_toNat_eq
  rw [BitVec.toNat_twoPow, BitVec.toNat_ofNat]

/-- The two's complement of a multiple of `2 ^ j` has `j` trailing zeros, whatever its sign. -/
theorem getLsbD_tc_of_dvd {x : Int} {i j : Nat} (hdvd : ((2 ^ j : Nat) : Int) ∣ x) (hi : i < j) :
    (tc x).getLsbD i = false := by
  obtain ⟨y, rfl⟩ := hdvd
  rw [tc, BitVec.ofInt_mul, ofInt_two_pow, BitVec.mul_comm, BitVec.mul_twoPow_eq_shiftLeft,
    BitVec.getLsbD_shiftLeft]
  simp [hi]

theorem two_pow_dvd_c2iResult {c : CompactWord} (h : 3 < (sizeField c).toNat) :
    ((2 ^ (8 * ((sizeField c).toNat - 3)) : Nat) : Int) ∣ c2iResult c := by
  rw [← Int.dvd_natAbs, natAbs_c2iResult, c2iMagnitude_of_gt h, Nat.shiftLeft_eq, Nat.cast_mul]
  exact dvd_mul_left _ _

/-- Settles O9: above size 3 the result is a multiple of a power of two, and negation keeps that. -/
theorem c2iPortKeepsTrailingZeros : Obligations.C2iPortKeepsTrailingZeros := by
  unfold Obligations.C2iPortKeepsTrailingZeros
  exact ⟨fun c hsize i hi => getLsbD_tc_of_dvd (two_pow_dvd_c2iResult hsize) hi, by decide +kernel⟩

/-- Settles O11: the port word of the magnitude or of its negative; below zero the bits are those of `mag - 1`
inverted, and `mag - 1` has none from the magnitude's bit length up. -/
theorem c2iSignExtendsTheMagnitude : Obligations.C2iSignExtendsTheMagnitude := by
  unfold Obligations.C2iSignExtendsTheMagnitude
  intro c mag
  have mag_lt : mag < 2 ^ 2039 := c2iMagnitude_lt (Nat.le_of_lt_succ (sizeField c).isLt) (mantissaField c).isLt
  have negative_eq (h : c2iNegative c = true) : c2iValue c = -BitVec.ofNat 2040 mag := by
    rw [c2iValue, tc, c2iResult, if_pos h, BitVec.ofInt_neg, BitVec.ofInt_natCast]
  refine ⟨fun h => ?_, fun h => ?_, fun h hmag i hi hwidth => ?_⟩
  · have value_eq : c2iValue c = BitVec.ofNat 2040 mag := by
      rw [c2iValue, tc, c2iResult, h, if_neg Bool.false_ne_true, BitVec.ofInt_natCast]
    refine ⟨value_eq, ?_⟩
    rw [value_eq, BitVec.getLsbD_ofNat, Nat.testBit_lt_two_pow mag_lt, Bool.and_false]
  · rw [negative_eq h, BitVec.neg_eq_not_add]
  · have pred_lt : mag - 1 < 2 ^ i :=
      lt_of_lt_of_le (Nat.sub_lt (Nat.pos_of_ne_zero hmag) one_pos)
        ((bitLength_spec hmag).2.le.trans (Nat.pow_le_pow_right (by decide) hi))
    have not_pred : -BitVec.ofNat 2040 mag = ~~~BitVec.ofNat 2040 (mag - 1) := by
      rw [← BitVec.not_inj, BitVec.not_neg, BitVec.not_not,
        BitVec.ofNat_sub_ofNat_of_le _ _ (Nat.one_lt_two_pow (by decide)) (Nat.pos_of_ne_zero hmag)]
    rw [negative_eq h, not_pred, BitVec.getLsbD_not, BitVec.getLsbD_ofNat, Nat.testBit_lt_two_pow pred_lt]
    simp [hwidth]

end Sys2Proof.Machine
end

section
/-! What I2C drives: the fields of its word, its closed form, and the one operand that overflows
(41_i2c_encode.md R78 to R84, 42_codec_laws.md R91). -/

namespace Sys2Proof.Machine

/-! ### The fields of the driven word -/

theorem sint_neg_iff (w : ValueWord) : sint w < 0 ↔ w.getLsbD 2039 = true := by
  rw [← decide_eq_true_iff (p := sint w < 0), sint, ← BitVec.msb_eq_toInt, BitVec.msb_eq_getLsbD_last]

/-- A negative operand is not zero, so the sign decision's test for a zero mantissa never bites. -/
theorem i2cSign_sint (x : Int) : i2cSign x (i2cMantissaField x.natAbs) = decide (x < 0) := by
  rw [Bool.eq_iff_iff, i2cSign_iff, decide_eq_true_iff, i2cMantissaField_eq_MF, ne_eq, MF_eq_zero_iff]
  omega

theorem mantissaField_i2cCompact (w : ValueWord) : (mantissaField (i2cCompact w)).toNat = MF (sint w).natAbs := by
  rw [i2cCompact, mantissaField_packCompact, i2cMantissaField_eq_MF, BitVec.toNat_ofNat, Nat.mod_eq_of_lt (MF_lt _)]

theorem signBit_i2cCompact (w : ValueWord) : signBit (i2cCompact w) = decide (sint w < 0) := by
  rw [i2cCompact, signBit_packCompact, i2cSign_sint]

theorem SF_natAbs_sint_le (w : ValueWord) : SF (sint w).natAbs ≤ 256 := by
  rw [← i2cSize_eq_SF]
  exact i2cSize_natAbs_sint_le w

theorem sizeField_i2cCompact (w : ValueWord) : (sizeField (i2cCompact w)).toNat = SF (sint w).natAbs % 256 := by
  rw [i2cCompact, sizeField_packCompact, i2cSize_eq_SF, exponentField_toNat (SF_natAbs_sint_le w)]

theorem i2cOvf_eq_OVF (w : ValueWord) : i2cOvf w = OVF (sint w) := by
  have upper := SF_natAbs_sint_le w
  rw [i2cOvf, i2cSize_eq_SF, ovfOfSize_eq_decide, OVF]
  exact decide_eq_decide.mpr (by omega)

theorem i2cOvf_eq_false_iff (w : ValueWord) : i2cOvf w = false ↔ SF (sint w).natAbs ≤ 255 := by
  have upper := SF_natAbs_sint_le w
  rw [i2cOvf_eq_OVF, OVF, decide_eq_false_iff_not]
  omega

theorem sizeField_i2cCompact_of_no_ovf {w : ValueWord} (h : i2cOvf w = false) :
    (sizeField (i2cCompact w)).toNat = SF (sint w).natAbs := by
  rw [sizeField_i2cCompact, Nat.mod_eq_of_lt (Nat.lt_succ_of_le ((i2cOvf_eq_false_iff w).mp h))]

theorem i2cCompact_toNat_eq_ENC (w : ValueWord) : (i2cCompact w).toNat = ENC (sint w) := by
  rw [i2cCompact_toNat, i2cSize_eq_SF, i2cSign_sint, i2cMantissaField_eq_MF, ENC]
  by_cases h : sint w < 0 <;> simp [h]

/-- Settles O24: the operand is read back from its port word, and every field is the closed form's. -/
theorem i2cIsItsClosedForm : Obligations.I2cIsItsClosedForm := by
  unfold Obligations.I2cIsItsClosedForm
  intro x hx
  rw [i2cOvf_eq_OVF, i2cCompact_toNat_eq_ENC, sint_tc hx]
  exact ⟨rfl, fun _ => rfl⟩

/-- Settles O23: the operand's sign is bit 2039, and the mantissa field is zero for the operand zero alone. -/
theorem i2cSignBitIsTheOperandSign : Obligations.I2cSignBitIsTheOperandSign := by
  unfold Obligations.I2cSignBitIsTheOperandSign
  intro w
  have mantissa_zero_iff : mantissaField (i2cCompact w) = 0#23 ↔ sint w = 0 := by
    rw [← BitVec.toNat_inj, mantissaField_i2cCompact, BitVec.toNat_ofNat, Nat.zero_mod, MF_eq_zero_iff,
      Int.natAbs_eq_zero]
  refine ⟨?_, fun h => ?_, mantissa_zero_iff.trans sint_eq_zero_iff⟩
  · rw [signBit_i2cCompact, Bool.eq_iff_iff, decide_eq_true_iff, sint_neg_iff]
  · rw [signBit_i2cCompact, mantissa_zero_iff.mp h]
    rfl

/-! ### Overflow -/

theorem pow_256_255 : 256 ^ 255 = 2 * 2 ^ 2039 := by
  rw [byteShift_eq, show 8 * 255 = 2039 + 1 from rfl, pow_succ']

/-- `2^2039` is the least magnitude whose double needs 256 bytes. -/
theorem SF_le_255_iff {v : Nat} : SF v ≤ 255 ↔ v < 2 ^ 2039 := by
  constructor
  · intro h
    have upper : 2 * v < 2 * 2 ^ 2039 := by
      rw [← pow_256_255]
      exact lt_of_lt_of_le (two_mul_lt_pow_SF v) (pow_le_pow_right₀ (by decide) h)
    exact lt_of_mul_lt_mul_left' upper
  · intro h
    apply SF_le
    rw [pow_256_255]
    exact Nat.mul_lt_mul_of_pos_left h two_pos

theorem i2cOvf_eq_false_iff_lt (w : ValueWord) : i2cOvf w = false ↔ (sint w).natAbs < 2 ^ 2039 := by
  rw [i2cOvf_eq_false_iff, SF_le_255_iff]

/-- The two's complement range has one magnitude `2^2039`, on the negative side. -/
theorem natAbs_sint_lt_iff (w : ValueWord) : (sint w).natAbs < 2 ^ 2039 ↔ sint w ≠ -2 ^ 2039 := by
  obtain ⟨lower, upper⟩ := sint_inVR w
  have cast_bound : ((2 ^ 2039 : Nat) : Int) = 2 ^ 2039 := Nat.cast_pow 2 2039
  rw [← cast_bound] at lower upper ⊢
  generalize 2 ^ 2039 = bound at *
  omega

/-- Settles O18: the final size is 256 for the magnitude `2^2039` alone, which only `-2^2039` has. -/
theorem i2cOverflowsOnTheLeastOperandOnly : Obligations.I2cOverflowsOnTheLeastOperandOnly := by
  unfold Obligations.I2cOverflowsOnTheLeastOperandOnly
  constructor
  · intro w
    rw [← not_iff_not, Bool.not_eq_true, i2cOvf_eq_false_iff_lt, natAbs_sint_lt_iff]
  · intro s
    have compact_eq : i2cCompact (tc (-2 ^ 2039)) = 0x00808000#32 := by decide +kernel
    have ovf_eq : i2cOvf (tc (-2 ^ 2039)) = true := by decide +kernel
    rw [exec_i2c, State.driveI2c, compact_eq, ovf_eq]

/-! ### Negation -/

theorem compactWord_ext {c d : CompactWord} (hsize : (sizeField c).toNat = (sizeField d).toNat)
    (hsign : signBit c = signBit d) (hmant : (mantissaField c).toNat = (mantissaField d).toNat) : c = d := by
  rw [← packCompact_fields c, ← packCompact_fields d, BitVec.eq_of_toNat_eq hsize, hsign,
    BitVec.eq_of_toNat_eq hmant]

/-- Settles O26: size and mantissa are functions of the magnitude, and the sign bit is the operand's sign; flipping it
negates C2I's result. -/
theorem negationChangesOnlyTheSignBit : Obligations.NegationChangesOnlyTheSignBit := by
  unfold Obligations.NegationChangesOnlyTheSignBit
  intro x hx hneg hzero
  have flipped : i2cCompact (tc (-x)) = i2cCompact (tc x) ^^^ 0x00800000#32 := by
    apply compactWord_ext
    · rw [sizeField_xor_signMask, sizeField_i2cCompact, sizeField_i2cCompact, sint_tc hx, sint_tc hneg, Int.natAbs_neg]
    · rw [signBit_xor_signMask, signBit_i2cCompact, signBit_i2cCompact, sint_tc hx, sint_tc hneg, ← decide_not]
      exact decide_eq_decide.mpr (by omega)
    · rw [mantissaField_xor_signMask, mantissaField_i2cCompact, mantissaField_i2cCompact, sint_tc hx, sint_tc hneg,
        Int.natAbs_neg]
  exact ⟨flipped, by rw [flipped, flippingTheSignBitNegates]⟩

end Sys2Proof.Machine
end

section
/-! The laws of the two units together: the round trip of a magnitude, canonical words, and monotonicity
(42_codec_laws.md R88 to R99). -/

namespace Sys2Proof.Machine

/-! ### The magnitude after a round trip -/

/-- What the round trip keeps of a magnitude (42_codec_laws.md R90). -/
def keptMagnitude (v : Nat) : Nat := v - v % 256 ^ (SF v - 3)

/-- C2I's shifter undoes I2C's, up to the low bytes I2C drops. -/
theorem c2iMagnitude_SF_MF (v : Nat) : c2iMagnitude (SF v) (MF v) = keptMagnitude v := by
  rw [c2iMagnitude_eq, MF, keptMagnitude]
  split
  next h => rw [Nat.mul_div_cancel _ (by positivity), Nat.sub_eq_zero_of_le h, pow_zero, Nat.mod_one, Nat.sub_zero]
  next h => rw [mul_comm, Nat.sub_eq_of_eq_add (Nat.div_add_mod v _).symm]

theorem keptMagnitude_le (v : Nat) : keptMagnitude v ≤ v := Nat.sub_le _ _

/-- Clearing low bytes does not go below a multiple of their weight. -/
theorem le_keptMagnitude {d v : Nat} (hle : d ≤ v) (hdvd : 256 ^ (SF v - 3) ∣ d) : d ≤ keptMagnitude v := by
  obtain ⟨q, rfl⟩ := hdvd
  have quotient_le : q ≤ v / 256 ^ (SF v - 3) := by
    rw [Nat.le_div_iff_mul_le (by positivity), mul_comm]
    exact hle
  rw [keptMagnitude, Nat.sub_eq_of_eq_add (Nat.div_add_mod v _).symm]
  exact Nat.mul_le_mul_left _ quotient_le

theorem keptMagnitude_eq_self_iff {v : Nat} : keptMagnitude v = v ↔ v % 256 ^ (SF v - 3) = 0 := by
  have mod_le := Nat.mod_le v (256 ^ (SF v - 3))
  rw [keptMagnitude]
  omega

theorem keptMagnitude_eq_self_of_dvd {v : Nat} (h : 256 ^ (SF v - 3) ∣ v) : keptMagnitude v = v :=
  keptMagnitude_eq_self_iff.mpr (Nat.mod_eq_zero_of_dvd h)

/-! ### Fields whose magnitude keeps every mantissa bit -/

/-- For a mantissa of at least 16 bits that the shifter does not cut, the magnitude's final size and mantissa are the
fields it came from. -/
theorem SF_MF_c2iMagnitude {size word : Nat} (hword : word < 2 ^ 23) (hle : 0x8000 ≤ word)
    (hdvd : 256 ^ 3 ∣ word * 256 ^ size) :
    SF (c2iMagnitude size word) = size ∧ MF (c2iMagnitude size word) = word := by
  have exact_shift : c2iMagnitude size word * 256 ^ 3 = word * 256 ^ size := by
    rw [c2iMagnitude_eq_div, Nat.div_mul_cancel hdvd]
  have lower : 0x8000 * 256 ^ size ≤ word * 256 ^ size := Nat.mul_le_mul_right _ hle
  have upper : word * 256 ^ size < 2 ^ 23 * 256 ^ size := Nat.mul_lt_mul_of_pos_right hword (by positivity)
  have size_eq : SF (c2iMagnitude size word) = size := SF_eq_of_bounds (by omega) (by omega)
  refine ⟨size_eq, ?_⟩
  rw [MF_eq_windowShift, size_eq, windowShift_eq_div, exact_shift, Nat.mul_div_cancel _ (by positivity)]

/-- I2C's own fields are such fields. -/
theorem dvd_MF_mul_pow_SF (v : Nat) : 256 ^ 3 ∣ MF v * 256 ^ SF v := by
  rw [MF]
  split
  next h =>
    rw [mul_assoc, pow_sub_mul_pow 256 h]
    exact dvd_mul_left _ _
  next h => exact (pow_dvd_pow 256 (Nat.le_of_not_le h)).mul_left _

theorem SF_MF_keptMagnitude (v : Nat) : SF (keptMagnitude v) = SF v ∧ MF (keptMagnitude v) = MF v := by
  by_cases hv : v = 0
  · subst hv; decide
  · rw [← c2iMagnitude_SF_MF]
    exact SF_MF_c2iMagnitude (MF_lt v) (le_MF hv) (dvd_MF_mul_pow_SF v)

/-- Clearing the dropped bytes does not pass a power of 256 at or below the magnitude. -/
theorem byteLen_keptMagnitude (v : Nat) : byteLen (keptMagnitude v) = byteLen v := by
  by_cases hv : v = 0
  · subst hv; rfl
  · have size_le : SF v ≤ byteLen v + 1 := by
      rw [← i2cSize_eq_SF, i2cSize]; split <;> omega
    obtain ⟨positive, -, -⟩ := byteLen_bounds hv
    apply Nat.le_antisymm
    · exact byteLen_le (lt_of_le_of_lt (keptMagnitude_le v) (lt_pow_byteLen hv))
    · have := lt_byteLen (le_keptMagnitude (pow_byteLen_pred_le hv) (pow_dvd_pow 256 (by omega)))
      omega

/-- A larger final size means a larger magnitude; with equal sizes the same bytes are cleared. -/
theorem keptMagnitude_mono {v v' : Nat} (h : v ≤ v') : keptMagnitude v ≤ keptMagnitude v' := by
  rcases (SF_mono h).eq_or_lt with size_eq | size_lt
  · rw [← c2iMagnitude_SF_MF, ← c2iMagnitude_SF_MF, MF_eq_windowShift, MF_eq_windowShift, size_eq,
      c2iMagnitude_eq_div, c2iMagnitude_eq_div]
    exact Nat.div_le_div_right (Nat.mul_le_mul_right _ (windowShift_mono _ h))
  · by_contra hlt
    have := SF_mono (Nat.le_of_not_le hlt)
    rw [(SF_MF_keptMagnitude v).1, (SF_MF_keptMagnitude v').1] at this
    omega

/-- C2I's results are kept: their low `size - 3` bytes are zero, and their final size is at most `size`. -/
theorem keptMagnitude_c2iMagnitude {size word : Nat} (hword : word < 2 ^ 23) :
    keptMagnitude (c2iMagnitude size word) = c2iMagnitude size word := by
  apply keptMagnitude_eq_self_of_dvd
  by_cases h : size ≤ 3
  · have mag_lt : c2iMagnitude size word < 2 ^ 23 := by
      rw [c2iMagnitude_of_le h]
      exact lt_of_le_of_lt (Nat.shiftRight_le _ _) hword
    have size_le : SF (c2iMagnitude size word) ≤ 3 := SF_le (by omega)
    rw [Nat.sub_eq_zero_of_le size_le, pow_zero]
    exact one_dvd _
  · have mag_eq : c2iMagnitude size word = word * 256 ^ (size - 3) := by rw [c2iMagnitude_eq, if_neg h]
    have size_le : SF (word * 256 ^ (size - 3)) ≤ size := by
      apply SF_le
      rw [← pow_sub_mul_pow 256 (Nat.le_of_not_le h), mul_comm (256 ^ _), ← mul_assoc]
      exact Nat.mul_lt_mul_of_pos_right (by omega) (by positivity)
    rw [mag_eq]
    exact (pow_dvd_pow 256 (by omega)).mul_left _

/-! ### The round trip on the ports -/

theorem MAG_i2cCompact {w : ValueWord} (h : i2cOvf w = false) :
    MAG (i2cCompact w).toNat = keptMagnitude (sint w).natAbs := by
  rw [MAG_eq_c2iMagnitude, sizeField_i2cCompact_of_no_ovf h, mantissaField_i2cCompact, c2iMagnitude_SF_MF]

theorem natAbs_sint_c2iValue_i2cCompact {w : ValueWord} (h : i2cOvf w = false) :
    (sint (c2iValue (i2cCompact w))).natAbs = keptMagnitude (sint w).natAbs := by
  rw [natAbs_sint_c2iValue, ← MAG_eq_c2iMagnitude, MAG_i2cCompact h]

theorem sint_c2iValue_i2cCompact {w : ValueWord} (h : i2cOvf w = false) :
    sint (c2iValue (i2cCompact w)) = (sint w).sign * (keptMagnitude (sint w).natAbs : Int) := by
  rw [sint_c2iValue_signed, MAG_i2cCompact h, signBit_i2cCompact]
  rcases lt_trichotomy (sint w) 0 with hneg | hzero | hpos
  · rw [decide_eq_true hneg, if_pos rfl, Int.sign_eq_neg_one_of_neg hneg, neg_one_mul]
  · rw [hzero]
    rfl
  · rw [decide_eq_false hpos.not_gt, if_neg Bool.false_ne_true, Int.sign_eq_one_of_pos hpos, one_mul]

/-- The round trip keeps the operand exactly when it keeps its magnitude. -/
theorem c2iValue_i2cCompact_eq_self_iff {w : ValueWord} (h : i2cOvf w = false) :
    c2iValue (i2cCompact w) = w ↔ keptMagnitude (sint w).natAbs = (sint w).natAbs := by
  constructor
  · intro heq
    rw [← natAbs_sint_c2iValue_i2cCompact h, heq]
  · intro heq
    apply sint_inj
    rw [sint_c2iValue_i2cCompact h, heq, Int.sign_mul_natAbs]

/-- No C2I result is the overflow operand (42_codec_laws.md R97). -/
theorem i2cOvf_c2iValue (c : CompactWord) : i2cOvf (c2iValue c) = false := by
  rw [i2cOvf_eq_false_iff_lt, natAbs_sint_c2iValue]
  exact c2iMagnitude_lt (Nat.le_of_lt_succ (sizeField c).isLt) (mantissaField c).isLt

/-- A C2I result goes through I2C and back unchanged (42_codec_laws.md R93). -/
theorem c2iValue_i2cCompact_c2iValue (c : CompactWord) : c2iValue (i2cCompact (c2iValue c)) = c2iValue c := by
  rw [c2iValue_i2cCompact_eq_self_iff (i2cOvf_c2iValue c), natAbs_sint_c2iValue,
    keptMagnitude_c2iMagnitude (mantissaField c).isLt]

/-- Settles O27: on magnitudes the round trip is `keptMagnitude`, and what it answers is a C2I result. -/
theorem roundTripTruncatesTowardZero : Obligations.RoundTripTruncatesTowardZero := by
  unfold Obligations.RoundTripTruncatesTowardZero
  intro w hovf v k t
  exact ⟨sint_c2iValue_i2cCompact hovf,
    (c2iValue_i2cCompact_eq_self_iff hovf).trans keptMagnitude_eq_self_iff, c2iValue_i2cCompact_c2iValue _⟩

/-- Settles O32: the magnitude's byte length survives the truncation. -/
theorem roundTripKeepsTheByteLength : Obligations.RoundTripKeepsTheByteLength := by
  unfold Obligations.RoundTripKeepsTheByteLength
  refine ⟨fun w hovf => ?_, by decide +kernel⟩
  rw [natAbs_sint_c2iValue_i2cCompact hovf, byteLen_keptMagnitude]

/-- Settles O28: up to 23 bits the final size is at most 3, so no byte is cleared; with 24 bits it is 4. -/
theorem losslessUpTo23Bits : Obligations.LosslessUpTo23Bits := by
  unfold Obligations.LosslessUpTo23Bits
  intro x
  have round_trip (h : x.natAbs ≤ 0xFFFFFF) :
      sint (c2iValue (i2cCompact (tc x))) = x.sign * (keptMagnitude x.natAbs : Int) := by
    have small : x.natAbs < 2 ^ 2039 :=
      lt_of_lt_of_le (by omega : x.natAbs < 2 ^ 24) (pow_le_pow_right₀ (by decide) (by decide))
    have value_eq : sint (tc x) = x := sint_tc (inVR_of_natAbs_lt small)
    rw [sint_c2iValue_i2cCompact ((i2cOvf_eq_false_iff_lt _).mpr (by rw [value_eq]; exact small)), value_eq]
  constructor
  · intro h
    have size_le : SF x.natAbs ≤ 3 := SF_le (by omega)
    rw [round_trip (by omega), keptMagnitude, Nat.sub_eq_zero_of_le size_le, pow_zero, Nat.mod_one, Nat.sub_zero,
      Int.sign_mul_natAbs]
  · intro lower upper
    have size_eq : SF x.natAbs = 4 := SF_eq_of_bounds (by omega) (by omega)
    rw [round_trip upper, keptMagnitude, size_eq]
    rfl

end Sys2Proof.Machine
end

section
/-! Canonical words: the encoder's range, on which the two units are inverse to each other, and the order of encoded
words (42_codec_laws.md R92 to R98). -/

namespace Sys2Proof.Machine

/-! ### The canonical words are the encoder's range -/

/-- The conditions on sizes 1 and 2 say that the right shift cuts no mantissa bit. -/
theorem cuts_no_bit_iff {size word : Nat} (hsize : 1 ≤ size) :
    (size ≠ 1 ∨ word % 2 ^ 16 = 0) ∧ (size ≠ 2 ∨ word % 2 ^ 8 = 0) ↔ 256 ^ 3 ∣ word * 256 ^ size := by
  match size with
  | 1 | 2 => omega
  | n + 3 =>
    have dvd : 256 ^ 3 ∣ word * 256 ^ (n + 3) := (Dvd.intro_left _ (pow_add 256 n 3).symm).mul_left _
    exact iff_of_true ⟨.inl (by omega), .inl (by omega)⟩ dvd

theorem canonical_iff (c : CompactWord) :
    canonical c = true ↔ c = 0#32 ∨ (0x8000 ≤ (mantissaField c).toNat ∧ 1 ≤ (sizeField c).toNat ∧
      256 ^ 3 ∣ (mantissaField c).toNat * 256 ^ (sizeField c).toNat) := by
  simp only [canonical, Bool.or_eq_true, Bool.and_eq_true, beq_iff_eq, bne_iff_ne, decide_eq_true_iff, and_assoc]
  refine or_congr_right (and_congr_right fun _ => and_congr_right fun hsize => cuts_no_bit_iff hsize)

theorem canonical_i2cCompact {w : ValueWord} (h : i2cOvf w = false) : canonical (i2cCompact w) = true := by
  by_cases hw : sint w = 0
  · obtain rfl := sint_eq_zero_iff.mp hw
    decide +kernel
  · have hv : (sint w).natAbs ≠ 0 := Int.natAbs_ne_zero.mpr hw
    rw [canonical_iff, mantissaField_i2cCompact, sizeField_i2cCompact_of_no_ovf h]
    exact .inr ⟨le_MF hv, SF_pos hv, dvd_MF_mul_pow_SF _⟩

/-- Re-encoding a canonical word finds its own fields again. -/
theorem i2cCompact_c2iValue_of_canonical {c : CompactWord} (h : canonical c = true) :
    i2cCompact (c2iValue c) = c := by
  rcases (canonical_iff c).mp h with rfl | ⟨hle, -, hdvd⟩
  · decide +kernel
  · obtain ⟨size_eq, word_eq⟩ := SF_MF_c2iMagnitude (mantissaField c).isLt hle hdvd
    have mag_ne_zero : MAG c.toNat ≠ 0 := by
      rw [MAG_eq_c2iMagnitude, ne_eq, ← MF_eq_zero_iff, word_eq]
      omega
    obtain ⟨negative_iff, -⟩ := c2iSignOfTheResult c
    apply compactWord_ext
    · rw [sizeField_i2cCompact_of_no_ovf (i2cOvf_c2iValue c), natAbs_sint_c2iValue, size_eq]
    · rw [signBit_i2cCompact, Bool.eq_iff_iff, decide_eq_true_iff, negative_iff]
      exact and_iff_left mag_ne_zero
    · rw [mantissaField_i2cCompact, natAbs_sint_c2iValue, word_eq]

/-- Settles O29: without overflow I2C's fields meet the conditions, and a canonical word is encoded from the operand it
decodes to. -/
theorem canonicalWordsAreTheEncodersRange : Obligations.CanonicalWordsAreTheEncodersRange := by
  unfold Obligations.CanonicalWordsAreTheEncodersRange
  intro c
  constructor
  · intro h
    exact ⟨c2iValue c, i2cOvf_c2iValue c, i2cCompact_c2iValue_of_canonical h⟩
  · rintro ⟨w, hovf, rfl⟩
    exact canonical_i2cCompact hovf

theorem canonical_i2cCompact_c2iValue (c : CompactWord) : canonical (i2cCompact (c2iValue c)) = true :=
  canonical_i2cCompact (i2cOvf_c2iValue c)

/-- Settles O30: a C2I result never overflows, so its encoding is canonical, and it goes back unchanged. -/
theorem reencodingCanonicalises : Obligations.ReencodingCanonicalises := by
  unfold Obligations.ReencodingCanonicalises
  intro c
  refine ⟨i2cOvf_c2iValue c, canonical_i2cCompact_c2iValue c, c2iValue_i2cCompact_c2iValue c, fun h => ?_,
    i2cCompact_c2iValue_of_canonical⟩
  rw [← h]
  exact canonical_i2cCompact_c2iValue c

/-- Settles O31: C2I's range is what the round trip keeps, and re-encoding gives a canonical word back. -/
theorem unitsAreInverseOnCanonicalWords : Obligations.UnitsAreInverseOnCanonicalWords := by
  unfold Obligations.UnitsAreInverseOnCanonicalWords
  refine ⟨fun c => i2cCompact_c2iValue_of_canonical, fun w h => ?_, fun w => ⟨?_, fun h => ⟨_, h⟩⟩,
    fun c d hc hd h => ?_, ?_, ?_⟩
  · rw [← h]
    exact canonical_i2cCompact_c2iValue _
  · rintro ⟨c, rfl⟩
    exact c2iValue_i2cCompact_c2iValue c
  · rw [← i2cCompact_c2iValue_of_canonical hc, h, i2cCompact_c2iValue_of_canonical hd]
  · exact ⟨0x00000000#32, 0x00800000#32, by decide, by decide +kernel⟩
  · exact ⟨tc 0x1000000, tc 0x1000001, by decide +kernel⟩

/-! ### Order -/

/-- A larger magnitude has a larger final size, or the same size and no smaller mantissa. -/
theorem SF_MF_mono {v v' : Nat} (h : v ≤ v') : SF v * 2 ^ 24 + MF v ≤ SF v' * 2 ^ 24 + MF v' := by
  rcases (SF_mono h).eq_or_lt with size_eq | size_lt
  · rw [MF_eq_windowShift, MF_eq_windowShift, size_eq]
    exact Nat.add_le_add_left (windowShift_mono _ h) _
  · have := MF_lt v
    omega

theorem i2cCompact_toNat_of_nonneg {w : ValueWord} (hnonneg : 0 ≤ sint w) (hovf : i2cOvf w = false) :
    (i2cCompact w).toNat = SF (sint w).natAbs * 2 ^ 24 + MF (sint w).natAbs := by
  have size_lt := Nat.lt_succ_of_le ((i2cOvf_eq_false_iff w).mp hovf)
  rw [i2cCompact_toNat_eq_ENC, ENC, if_neg hnonneg.not_gt, Nat.mod_eq_of_lt size_lt, add_zero]

theorem sint_c2iValue_i2cCompact_of_nonneg {w : ValueWord} (hnonneg : 0 ≤ sint w) (hovf : i2cOvf w = false) :
    sint (c2iValue (i2cCompact w)) = keptMagnitude (sint w).natAbs := by
  have sign_clear : signBit (i2cCompact w) = false := by
    rw [signBit_i2cCompact, decide_eq_false hnonneg.not_gt]
  rw [sint_c2iValue_signed, MAG_i2cCompact hovf, sign_clear, if_neg Bool.false_ne_true]

/-- A non-negative operand of the value range is read back and does not overflow. -/
theorem sint_tc_of_nonneg {x : Int} (hnonneg : 0 ≤ x) (hlt : x < 2 ^ 2039) :
    sint (tc x) = x ∧ i2cOvf (tc x) = false := by
  have value_eq : sint (tc x) = x := sint_tc ⟨le_trans (neg_nonpos.mpr (by positivity)) hnonneg, hlt⟩
  refine ⟨value_eq, ?_⟩
  rw [i2cOvf_eq_false_iff_lt, natAbs_sint_lt_iff, value_eq]
  exact (lt_of_lt_of_le (neg_neg_of_pos (by positivity)) hnonneg).ne'

/-- Settles O33: on non-negative operands both the encoded word and the round trip are monotone in the magnitude. -/
theorem encodingIsMonotone : Obligations.EncodingIsMonotone := by
  unfold Obligations.EncodingIsMonotone
  intro x y hx hxy hy
  have hy_nonneg := hx.trans hxy
  obtain ⟨x_eq, x_ovf⟩ := sint_tc_of_nonneg hx (lt_of_le_of_lt hxy hy)
  obtain ⟨y_eq, y_ovf⟩ := sint_tc_of_nonneg hy_nonneg hy
  have abs_le : x.natAbs ≤ y.natAbs := by omega
  constructor
  · rw [i2cCompact_toNat_of_nonneg (by rwa [x_eq]) x_ovf, i2cCompact_toNat_of_nonneg (by rwa [y_eq]) y_ovf, x_eq, y_eq]
    exact SF_MF_mono abs_le
  · rw [sint_c2iValue_i2cCompact_of_nonneg (by rwa [x_eq]) x_ovf,
      sint_c2iValue_i2cCompact_of_nonneg (by rwa [y_eq]) y_ovf, x_eq, y_eq]
    exact Int.ofNat_le.mpr (keptMagnitude_mono abs_le)

end Sys2Proof.Machine
end

section
/-! The parts at their hardware widths drive what the stepwise functions say (40_c2i_decode.md R59, R61;
41_i2c_encode.md R68 to R81). -/

namespace Sys2Proof.Machine

/-! ### C2I: barrel shifter and sign-extend mux -/

/-- The first `n` stages shift by the amount in the low `n` bits of `k`. -/
theorem barrelStages_eq_shiftLeft (k : BitVec 8) (m : BitVec 2039) (n : Nat) :
    barrelStages k m n = m <<< (8 * (k.toNat % 2 ^ n)) := by
  induction n with
  | zero => simp [barrelStages, Nat.mod_one]
  | succ n ih =>
    have digit : k.toNat % 2 ^ (n + 1) = k.toNat % 2 ^ n + 2 ^ n * (k.getLsbD n).toNat := by
      rw [Nat.mod_pow_succ, BitVec.getLsbD, Nat.toNat_testBit]
    rw [barrelStages, barrelStage, ih, digit]
    cases k.getLsbD n
    · simp
    · rw [if_pos rfl, ← BitVec.shiftLeft_add, Bool.toNat_true, mul_one, mul_add]

/-- Each right path is the whole-byte right shift, extended with zeros. -/
theorem extractLsb'_setWidth_toNat (word : BitVec 23) {start len : Nat} (hlen : len ≤ 2039)
    (h : 23 ≤ start + len) : ((word.extractLsb' start len).setWidth 2039).toNat = word.toNat >>> start := by
  rw [BitVec.toNat_setWidth_of_le hlen, extractLsb'_toNat_of_reaches_top word h]

theorem barrelRight_toNat {size : BitVec 8} (h : size.toNat ≤ 3) (word : BitVec 23) :
    (barrelRight size word).toNat = c2iMagnitude size.toNat word.toNat := by
  have size_cases : size = 0#8 ∨ size = 1#8 ∨ size = 2#8 ∨ size = 3#8 := by
    simp only [← BitVec.toNat_inj, BitVec.toNat_ofNat]
    omega
  rw [c2iMagnitude_of_le h]
  rcases size_cases with rfl | rfl | rfl | rfl
  · have shifted_out : word.toNat >>> 24 = 0 :=
      Nat.shiftRight_eq_zero _ _ (lt_of_lt_of_le word.isLt (by decide))
    rw [show barrelRight 0#8 word = 0#2039 from rfl, BitVec.toNat_zero]
    exact shifted_out.symm
  · exact extractLsb'_setWidth_toNat word (start := 16) (len := 7) (by decide) (by decide)
  · exact extractLsb'_setWidth_toNat word (start := 8) (len := 15) (by decide) (by decide)
  · exact BitVec.toNat_setWidth_of_le (by decide)

theorem barrelShifter_toNat (size : BitVec 8) (word : BitVec 23) :
    (barrelShifter size word).toNat = c2iMagnitude size.toNat word.toNat := by
  have hsize := size.isLt
  have mag_lt : c2iMagnitude size.toNat word.toNat < 2 ^ 2039 := c2iMagnitude_lt (Nat.le_of_lt_succ hsize) word.isLt
  have le_iff : size ≤ 3#8 ↔ size.toNat ≤ 3 := by rw [BitVec.le_def]; rfl
  rw [barrelShifter]
  split
  next h => exact barrelRight_toNat (le_iff.mp h) word
  next h =>
    have size_gt : 3 < size.toNat := by rw [le_iff] at h; omega
    have k_eq : (size - 3#8).toNat % 2 ^ 8 = size.toNat - 3 := by
      rw [BitVec.toNat_sub, BitVec.toNat_ofNat]; omega
    rw [c2iMagnitude_of_gt size_gt] at mag_lt ⊢
    rw [barrelStages_eq_shiftLeft, k_eq, BitVec.toNat_shiftLeft, BitVec.toNat_setWidth_of_le (by decide)]
    simp only [Nat.mod_eq_of_lt mag_lt]

/-- The mux drives the two's complement word of the signed magnitude. -/
theorem signExtendMux_eq_tc (negative : Bool) (mag : BitVec 2039) :
    signExtendMux negative mag = tc (if negative then -(mag.toNat : Int) else mag.toNat) := by
  have zext : mag.setWidth 2040 = BitVec.ofInt 2040 mag.toNat := by
    rw [BitVec.ofInt_natCast, BitVec.ofNat_toNat]
  cases negative
  · exact zext
  · rw [signExtendMux, if_pos rfl, if_pos rfl, tc, BitVec.ofInt_neg, BitVec.neg_eq_not_add, zext]

/-- Settles O16: the barrel shifter drives the magnitude, which 2039 bits hold, and the mux its signed word. -/
theorem c2iDatapathMeetsThePseudocode : Obligations.C2iDatapathMeetsThePseudocode := by
  unfold Obligations.C2iDatapathMeetsThePseudocode
  intro c
  rw [c2iDatapath, signExtendMux_eq_tc, barrelShifter_toNat]
  rfl

/-! ### I2C: absolute value and priority detector -/

theorem absoluteValue_eq_abs (w : ValueWord) : absoluteValue w = w.abs := by
  rw [absoluteValue, ← BitVec.msb_eq_getLsbD_last (x := w), ← BitVec.neg_eq_not_add]
  rfl

/-- Exact for the least operand too: the magnitude `2^2039` is an unsigned 2040-bit number. -/
theorem absoluteValue_toNat (w : ValueWord) : (absoluteValue w).toNat = (sint w).natAbs := by
  have hw := w.isLt
  rw [absoluteValue_eq_abs, BitVec.toNat_abs, sint, BitVec.toInt_eq_msb_cond]
  split <;> omega

/-- The detector over the lowest `n` bytes finds their byte length. -/
theorem byteDetect_eq_byteLen (v : ValueWord) (n : Nat) : byteDetect v n = byteLen (v.toNat % 256 ^ n) := by
  induction n with
  | zero => rw [pow_zero, Nat.mod_one]; rfl
  | succ n ih =>
    have byte_eq : (byteOf v n).toNat = v.toNat / 256 ^ n % 256 := by rw [byteOf_toNat, byteShift_eq]
    have top := Nat.mod_pow_succ (x := v.toNat) (b := 256) (k := n)
    rw [byteDetect]
    split
    next h =>
      rw [ih, top, ← byte_eq, h]
      rfl
    next h =>
      have byte_pos : 1 ≤ v.toNat / 256 ^ n % 256 := by
        rw [← byte_eq, Nat.one_le_iff_ne_zero]
        exact fun hzero => h (BitVec.eq_of_toNat_eq hzero)
      apply Nat.le_antisymm
      · apply lt_byteLen
        rw [top]
        exact (Nat.le_mul_of_pos_right _ byte_pos).trans (Nat.le_add_left _ _)
      · exact byteLen_le (Nat.mod_lt _ (by positivity))

theorem byteDetect_all (v : ValueWord) : byteDetect v 255 = byteLen v.toNat := by
  have hv : v.toNat < 256 ^ 255 := by simpa only [byteShift_eq, Nat.reduceMul] using v.isLt
  rw [byteDetect_eq_byteLen, Nat.mod_eq_of_lt hv]

/-- Settles O20: negating the word negates the integer, which 2040 unsigned bits hold, and 255 bytes are the whole
word. -/
theorem priorityDetectorFindsTheByteLength : Obligations.PriorityDetectorFindsTheByteLength := by
  unfold Obligations.PriorityDetectorFindsTheByteLength
  intro w
  exact ⟨absoluteValue_toNat w, (sint_neg_iff w).symm, by rw [byteDetect_all, absoluteValue_toNat]⟩

/-! ### I2C: byte window, renormalising shifter, field pack -/

/-- A window byte is a digit of the magnitude scaled to the window, zero below byte 0. -/
theorem windowByte_toNat (v : ValueWord) (size j : Nat) :
    (windowByte v size j).toNat = v.toNat * 256 ^ j / 256 ^ size % 256 := by
  rw [windowByte]
  split
  next h =>
    rw [byteOf_toNat, ← byteShift_eq, ← pow_sub_mul_pow 256 h, Nat.mul_div_mul_right _ _ (by positivity)]
  next h =>
    obtain ⟨d, rfl⟩ := Nat.exists_eq_add_of_lt (Nat.lt_of_not_le h)
    rw [pow_succ, pow_add, mul_assoc, mul_left_comm, Nat.mul_div_cancel_left _ (by positivity), ← mul_assoc,
      Nat.mul_mod_left]
    rfl

/-- The three window bytes are the three digits of the intermediate. -/
theorem byteWindow_toNat (v : ValueWord) : (byteWindow v (byteLen v.toNat)).toNat = i2cWindow v.toNat := by
  have window_lt := i2cWindow_lt v.toNat
  have digit (j : Nat) (hj : j ≤ 3) :
      v.toNat * 256 ^ j / 256 ^ byteLen v.toNat = i2cWindow v.toNat / 256 ^ (3 - j) := by
    rw [i2cWindow, windowShift_eq_div, Nat.div_div_eq_div_mul, ← pow_sub_mul_pow 256 hj, mul_comm (256 ^ (3 - j)),
      ← mul_assoc, Nat.mul_div_mul_right _ _ (by positivity)]
  rw [byteWindow, BitVec.toNat_append, BitVec.toNat_append, ← Nat.shiftLeft_add_eq_or_of_lt (BitVec.isLt _),
    ← Nat.shiftLeft_add_eq_or_of_lt (BitVec.isLt _), Nat.shiftLeft_eq, Nat.shiftLeft_eq, windowByte_toNat,
    windowByte_toNat, windowByte_toNat, digit 1 (by decide), digit 2 (by decide), digit 3 (by decide)]
  omega

theorem getLsbD_23_eq_renormalises (m24 : BitVec 24) : m24.getLsbD 23 = renormalises m24.toNat := rfl

theorem renormMantissa_toNat {m24 : BitVec 24} {v : Nat} (h : m24.toNat = i2cWindow v) :
    (renormMantissa m24).toNat = i2cMantissaField v := by
  rw [renormMantissa, getLsbD_23_eq_renormalises, h, i2cMantissaField_eq_mod, i2cMantissa]
  split
  · rw [BitVec.toNat_setWidth, BitVec.extractLsb'_toNat, h]
    have := i2cWindow_lt v
    rw [Nat.shiftRight_eq_div_pow]
    omega
  · rw [BitVec.extractLsb'_toNat, h, Nat.shiftRight_zero]

theorem renormSize_toNat {m24 : BitVec 24} {v : Nat} (h : m24.toNat = i2cWindow v) (hlen : byteLen v ≤ 255) :
    (renormSize m24 (BitVec.ofNat 9 (byteLen v))).toNat = i2cSize v := by
  rw [renormSize, getLsbD_23_eq_renormalises, h, i2cSize]
  split
  · rw [BitVec.toNat_add, BitVec.toNat_ofNat, BitVec.toNat_ofNat]
    omega
  · rw [BitVec.toNat_ofNat]
    omega

/-- Field pack and sign encode: the low byte of the 9-bit final size is the exponent field, and its bit 8 is
`enc_ovf`. -/
theorem packed_parts_eq {w : ValueWord} {sizef : BitVec 9} {mant : BitVec 23}
    (size_eq : sizef.toNat = i2cSize (sint w).natAbs) (mant_eq : mant.toNat = i2cMantissaField (sint w).natAbs) :
    (packCompact (sizef.setWidth 8) (w.getLsbD 2039 && mant != 0#23) mant, sizef.getLsbD 8) =
      (i2cCompact w, i2cOvf w) := by
  have mant_zero_iff : mant = 0#23 ↔ i2cMantissaField (sint w).natAbs = 0 := by
    rw [← BitVec.toNat_inj, mant_eq]
    rfl
  refine Prod.ext (compactWord_ext ?_ ?_ ?_) ?_
  · rw [sizeField_packCompact, BitVec.toNat_setWidth, size_eq, i2cSize_eq_SF, sizeField_i2cCompact]
  · rw [signBit_packCompact, signBit_i2cCompact, ← i2cSign_sint, Bool.eq_iff_iff, i2cSign_iff, Bool.and_eq_true,
      bne_iff_ne, sint_neg_iff, ne_eq, mant_zero_iff]
  · rw [mantissaField_packCompact, mant_eq, mantissaField_i2cCompact, i2cMantissaField_eq_MF]
  · rw [i2cOvf, ovfOfSize, ← size_eq]
    rfl

/-- Settles O25: each part drives the stepwise value at its width. -/
theorem i2cDatapathMeetsThePseudocode : Obligations.I2cDatapathMeetsThePseudocode := by
  unfold Obligations.I2cDatapathMeetsThePseudocode
  intro w
  have window_eq := byteWindow_toNat (absoluteValue w)
  rw [absoluteValue_toNat] at window_eq
  rw [i2cDatapath, byteDetect_all, absoluteValue_toNat]
  exact packed_parts_eq (renormSize_toNat window_eq (byteLen_natAbs_sint_le w)) (renormMantissa_toNat window_eq)

end Sys2Proof.Machine
end

section
/-! Decoder and encoder as inverses on the words of the two ports, and the fixed words of the spec
(30_encoding.md R44 to R46, 95_test_vectors.md sections 1.1 and 3). -/

namespace Sys2Proof.Machine

theorem encode_instrOf {op : Op} {word : Nat} (h : word < 2 ^ portWidth op) :
    encode (instrOf op word) = (unitIndex op, word) := by
  cases op <;> simp only [portWidth] at h <;>
    simp only [instrOf, encode, BitVec.toNat_ofNat, Nat.mod_eq_of_lt h]

@[simp] theorem instrOf_c2i_toNat (c : CompactWord) : instrOf .c2i c.toNat = .c2i c := by
  rw [instrOf, BitVec.ofNat_toNat, BitVec.setWidth_eq]

@[simp] theorem instrOf_i2c_toNat (w : ValueWord) : instrOf .i2c w.toNat = .i2c w := by
  rw [instrOf, BitVec.ofNat_toNat, BitVec.setWidth_eq]

theorem toNat_lt_portWidth_c2i (c : CompactWord) : c.toNat < 2 ^ portWidth .c2i := by
  simpa only [portWidth] using c.isLt

theorem toNat_lt_portWidth_i2c (w : ValueWord) : w.toNat < 2 ^ portWidth .i2c := by
  simpa only [portWidth] using w.isLt

theorem decode_c2i_toNat (c : CompactWord) : decode 0 c.toNat = .ok (.c2i c) := by
  have h := decode_ok .c2i (toNat_lt_portWidth_c2i c)
  rwa [instrOf_c2i_toNat] at h

theorem decode_i2c_toNat (w : ValueWord) : decode 1 w.toNat = .ok (.i2c w) := by
  have h := decode_ok .i2c (toNat_lt_portWidth_i2c w)
  rwa [instrOf_i2c_toNat] at h

theorem decode_encode (i : Instr) : decode (encode i).1 (encode i).2 = .ok i := by
  cases i with
  | c2i c => exact decode_c2i_toNat c
  | i2c w => exact decode_i2c_toNat w

/-- Settles O2: what the decoder accepts is a unit's instruction on a word of its port, and both directions keep unit
and word. -/
theorem decodeInvertsEncode : Obligations.DecodeInvertsEncode := by
  unfold Obligations.DecodeInvertsEncode
  refine ⟨decode_encode, fun unit word i h => ?_⟩
  obtain ⟨op, rfl, hlt, rfl⟩ := decode_cases h
  exact encode_instrOf hlt

/-- Settles O3: the decoder answers for exactly the words of the two ports. -/
theorem decodeAcceptsExactlyThePortWords : Obligations.DecodeAcceptsExactlyThePortWords := by
  unfold Obligations.DecodeAcceptsExactlyThePortWords
  intro unit word
  constructor
  · rintro ⟨i, h⟩
    obtain ⟨op, rfl, hlt, -⟩ := decode_cases h
    cases op <;> simp only [portWidth] at hlt
    · exact .inl ⟨rfl, hlt⟩
    · exact .inr ⟨rfl, hlt⟩
  · rintro (⟨rfl, hlt⟩ | ⟨rfl, hlt⟩)
    · exact ⟨_, decode_ok .c2i (by simpa only [portWidth] using hlt)⟩
    · exact ⟨_, decode_ok .i2c (by simpa only [portWidth] using hlt)⟩

/-- Settles O1: the I2C words are the two's complement words of their integers, and decoding gives them back. -/
theorem writtenOutWordsDecode : Obligations.WrittenOutWordsDecode := by
  unfold Obligations.WrittenOutWordsDecode
  have positive_word : (tc 0x1234560000).toNat = 0x1234560000 := by decide +kernel
  have negative_word : (tc (-0x92345678)).toNat = 2 ^ 2040 - 0x92345678 := by decide +kernel
  refine ⟨decode_c2i_toNat 0x05123456#32, decode_c2i_toNat 0xFFFFFFFF#32, ?_, ?_, rfl, by decide, by decide,
    by decide⟩
  · rw [← positive_word]
    exact decode_i2c_toNat (tc 0x1234560000)
  · rw [← negative_word]
    exact decode_i2c_toNat (tc (-0x92345678))

/-! ### The source's examples -/

theorem exec_c2i_of_value {c : CompactWord} {v : ValueWord} (h : c2iValue c = v) (s : State) :
    exec (.c2i c) s = .next { s with decCompact := .held c, decValue := v } := by
  rw [exec_c2i, State.driveC2i, h]

theorem exec_i2c_of_word {w : ValueWord} {c : CompactWord} {o : Bool} (h : i2cCompact w = c ∧ i2cOvf w = o)
    (s : State) : exec (.i2c w) s = .next { s with encValue := .held w, encCompact := c, encOvf := o } := by
  rw [exec_i2c, State.driveI2c, h.1, h.2]

/-- Settles O34: each example is the value of its unit's function on a fixed operand. -/
theorem sourceExamplesRun : Obligations.SourceExamplesRun := by
  unfold Obligations.SourceExamplesRun
  intro s
  exact ⟨exec_c2i_of_value (by decide +kernel) s, exec_c2i_of_value (by decide +kernel) s,
    exec_c2i_of_value (by decide +kernel) s, exec_c2i_of_value (by decide +kernel) s,
    exec_c2i_of_value (by decide +kernel) s, exec_i2c_of_word (by decide +kernel) s,
    exec_i2c_of_word (by decide +kernel) s, exec_i2c_of_word (by decide +kernel) s,
    exec_i2c_of_word (by decide +kernel) s⟩

end Sys2Proof.Machine
end

section
/-! Operands and fetches: when a line has a port word, and why it is refused otherwise (30_encoding.md R51;
70_reset_and_hazards.md R116; 93_implementation_defined.md U2, U8). -/

namespace Sys2Proof.Machine

/-! ### The port word of an operand -/

theorem operandWord_literal {s : State} {l : Line} {x : Int} {word : Nat} (hl : l.operand = .literal x)
    (hw : integerWord l.op x = some word) : s.operandWord l = .ok word := by
  simp only [State.operandWord, hl, hw]

theorem operandWord_levels {s : State} {l : Line} {pins : List Level} {word : Nat} (hl : l.operand = .levels pins)
    (hw : levelsWord l.op pins = some word) : s.operandWord l = .ok word := by
  simp only [State.operandWord, hl, hw]

theorem operandWord_name {s : State} {l : Line} {n : Name} {b : Binding} {word : Nat} (hl : l.operand = .name n)
    (hb : s.lookup n = some b) (hw : integerWord l.op b.value = some word) : s.operandWord l = .ok word := by
  simp only [State.operandWord, hl, hb, hw]

theorem operandWord_lt {s : State} {l : Line} {word : Nat} (h : s.operandWord l = .ok word) :
    word < 2 ^ portWidth l.op := by
  unfold State.operandWord at h
  split at h
  next => split at h <;> cases h; exact integerWord_lt ‹_›
  next => split at h <;> cases h; exact levelsWord_lt ‹_›
  next =>
    split at h
    · cases h
    · split at h <;> cases h; exact integerWord_lt ‹_›

theorem inPortRange_of_integerWord_eq_none {op : Op} {x : Int} (h : integerWord op x = none) :
    inPortRange op x = false := by
  rw [← integerWord_isSome, h, Option.isSome_none]

/-- Why an operand has no port word. -/
theorem operandWord_error {s : State} {l : Line} {r : Refusal} (h : s.operandWord l = .error r) :
    (r = .nameNotBound l ∧ ∃ n, l.operand = .name n ∧ s.lookup n = none) ∨
    (r = .inputNotBinary l ∧ ∃ pins, l.operand = .levels pins ∧ levelsWord l.op pins = none) ∨
    (r = .operandOutOfRange l ∧ ∃ x, inPortRange l.op x = false ∧
      (l.operand = .literal x ∨ ∃ n b, l.operand = .name n ∧ s.lookup n = some b ∧ b.value = x)) := by
  unfold State.operandWord at h
  split at h
  next x hx =>
    split at h <;> cases h
    next hw => exact .inr (.inr ⟨rfl, x, inPortRange_of_integerWord_eq_none hw, .inl hx⟩)
  next pins hpins =>
    split at h <;> cases h
    next hw => exact .inr (.inl ⟨rfl, pins, hpins, hw⟩)
  next n hn =>
    split at h
    next hb => cases h; exact .inl ⟨rfl, n, hn, hb⟩
    next b hb =>
      split at h <;> cases h
      next hw =>
        exact .inr (.inr ⟨rfl, b.value, inPortRange_of_integerWord_eq_none hw, .inr ⟨n, b, hn, hb, rfl⟩⟩)

/-- Why a line is not fetched: its name is bound, or its operand has no port word. Every port word is decoded. -/
theorem fetch_error {s : State} {l : Line} {r : Refusal} :
    s.fetch l = .error r ↔
      (s.lookup l.name ≠ none ∧ r = .nameAlreadyBound l) ∨
      (s.lookup l.name = none ∧ s.operandWord l = .error r) := by
  by_cases hn : s.lookup l.name = none
  · cases hw : s.operandWord l with
    | error r' => simp [State.fetch, hn, hw]
    | ok word => simp [State.fetch, hn, hw, decode_ok l.op (operandWord_lt hw)]
  · have bound : (s.lookup l.name).isSome = true := Option.isSome_iff_ne_none.mpr hn
    rw [State.fetch, if_pos bound]
    simp [hn, eq_comm]

theorem fetch_of_operandWord {s : State} {l : Line} {word : Nat} (hn : s.lookup l.name = none)
    (hw : s.operandWord l = .ok word) : s.fetch l = .ok (instrOf l.op word) :=
  fetch_ok.mpr ⟨hn, word, hw, operandWord_lt hw, rfl⟩

/-- Settles O42: a step is refused when its line is not fetched. -/
theorem refusalsLieOutsideTheBlock : Obligations.RefusalsLieOutsideTheBlock := by
  unfold Obligations.RefusalsLieOutsideTheBlock
  intro s r h
  obtain ⟨l, rest, hs, hf⟩ := step_refused.mp h
  refine ⟨l, rest, hs, ?_⟩
  rcases fetch_error.mp hf with ⟨hbound, rfl⟩ | ⟨-, hw⟩
  · exact .inl ⟨rfl, hbound⟩
  · exact .inr (operandWord_error hw)

/-! ### Pin levels -/

/-- Pins give a number exactly when every level is binary. -/
theorem levelsNumber_eq_none_iff (pins : List Level) : levelsNumber pins = none ↔ .x ∈ pins ∨ .z ∈ pins := by
  induction pins with
  | nil => simp [levelsNumber]
  | cons p pins ih => cases p <;> simp [levelsNumber, ih]

theorem levelsWord_eq_none_of_not_binary {op : Op} {pins : List Level} (h : .x ∈ pins ∨ .z ∈ pins) :
    levelsWord op pins = none := by
  rw [levelsWord, (levelsNumber_eq_none_iff pins).mpr h, ite_self]

end Sys2Proof.Machine
end

section
/-! Steps: what one action of the host's script does, and what every step keeps (10_state.md R11; 30_encoding.md R51;
70_reset_and_hazards.md R113, R116). -/

namespace Sys2Proof.Machine

/-! ### A line that is fetched is run -/

theorem step_of_fetch {s t : State} {l : Line} {rest : List HostAction} {i : Instr} (hs : s.script = .eval l :: rest)
    (hf : s.fetch l = .ok i) (ht : exec i { s with script := rest } = .next t) :
    step s = .next (t.settle.bindResult l) := by
  simp only [step, hs, hf, ht, finishLine]

/-- Settles O38: the line is fetched as the decoded instruction, and every instruction answers a next state. -/
theorem stepRunsTheDecodedInstruction : Obligations.StepRunsTheDecodedInstruction := by
  unfold Obligations.StepRunsTheDecodedInstruction
  intro s l rest word i hs hn hw hd
  obtain ⟨t, ht⟩ := exec_total i { s with script := rest }
  have instr_eq : instrOf l.op word = i :=
    Except.ok.inj ((decode_ok l.op (operandWord_lt hw)).symm.trans hd)
  exact ⟨t, ht, step_of_fetch hs (instr_eq ▸ fetch_of_operandWord hn hw) ht⟩

/-- Settles O43: levels that are not binary give no port word; binary ones give a number of the port's width. -/
theorem nonBinaryInputIsRefused : Obligations.NonBinaryInputIsRefused := by
  unfold Obligations.NonBinaryInputIsRefused
  intro s n op pins rest hs hn
  constructor
  · intro hlevel
    refine step_refused.mpr ⟨_, rest, hs, fetch_error.mpr (.inr ⟨hn, ?_⟩)⟩
    simp only [State.operandWord, levelsWord_eq_none_of_not_binary hlevel]
  · intro hx hz hlen
    obtain ⟨word, hword⟩ := Option.ne_none_iff_exists'.mp
      (mt (levelsNumber_eq_none_iff pins).mp (not_or.mpr ⟨hx, hz⟩))
    have hw : levelsWord op pins = some word := by rw [levelsWord, if_pos hlen, hword]
    have hd := decode_ok op (levelsWord_lt hw)
    obtain ⟨t, ht, hstep⟩ := stepRunsTheDecodedInstruction s _ rest word _ hs hn (operandWord_levels rfl hw) hd
    exact ⟨word, _, t, hword, hd, ht, hstep⟩

/-! ### The host's load of one word -/

theorem unitIndex_injective : Function.Injective unitIndex := by
  intro op op' h
  cases op <;> cases op' <;> simp_all [unitIndex]

theorem decodeTableWord_eq_some {nbits w : Nat} {i : Instr} (h : decodeTableWord nbits w = some i) :
    ∃ op, unitOfWidth nbits = some op ∧ decode (unitIndex op) w = .ok i ∧ w < 2 ^ portWidth op := by
  unfold decodeTableWord at h
  split at h
  next op hop =>
    cases hd : decode (unitIndex op) w with
    | error e => rw [hd] at h; cases h
    | ok j =>
      rw [hd] at h
      cases h
      obtain ⟨op', hunit, hlt, -⟩ := decode_cases hd
      exact ⟨op, hop, hd, unitIndex_injective hunit ▸ hlt⟩
  next => cases h

theorem lineOfWord_eq {nbits : Nat} {op : Op} (h : unitOfWidth nbits = some op) (s : State) (w : Nat) :
    s.lineOfWord nbits w = ⟨s.freshName, op, .literal (wordInteger op w)⟩ := by
  simp only [State.lineOfWord, h]

/-- Settles O50: the loaded line's name is fresh and its literal has the loaded word as port word. -/
theorem loadedWordRunsNext : Obligations.LoadedWordRunsNext := by
  unfold Obligations.LoadedWordRunsNext
  intro s nbits w i h
  obtain ⟨op, hop, hd, hlt⟩ := decodeTableWord_eq_some h
  have line_eq := lineOfWord_eq hop s w
  have script_eq : (s.withFetchWord nbits w).script =
      .eval ⟨s.freshName, op, .literal (wordInteger op w)⟩ :: s.script := by
    rw [State.withFetchWord_script, line_eq]
  rw [line_eq]
  exact stepRunsTheDecodedInstruction (s.withFetchWord nbits w) _ s.script w i script_eq (lookup_freshName s)
    (operandWord_literal rfl (integerWord_wordInteger op hlt)) hd

end Sys2Proof.Machine
end

section
/-! What a line binds, and what the other actions leave alone (30_encoding.md R51; 42_codec_laws.md R97;
10_state.md R11; 70_reset_and_hazards.md R116). -/

namespace Sys2Proof.Machine

/-! ### A C2I line and an I2C line on a word of their port -/

theorem sample_c2i {s : State} {c : CompactWord} (h : s.decValue = c2iValue c) (n : Name) (o : Operand) :
    s.sample ⟨n, .c2i, o⟩ = ⟨n, sint (c2iValue c), none⟩ := by
  rw [State.sample, h]

theorem sample_i2c {s : State} {w : ValueWord} (hc : s.encCompact = i2cCompact w) (ho : s.encOvf = i2cOvf w)
    (n : Name) (o : Operand) : s.sample ⟨n, .i2c, o⟩ = ⟨n, (i2cCompact w).toNat, some (i2cOvf w)⟩ := by
  rw [State.sample, hc, ho]

/-- A C2I line binds C2I's result and no flag. -/
theorem step_c2i_line {s : State} {n : Name} {o : Operand} {rest : List HostAction} {c : CompactWord}
    (hs : s.script = .eval ⟨n, .c2i, o⟩ :: rest) (hn : s.lookup n = none)
    (hw : s.operandWord ⟨n, .c2i, o⟩ = .ok c.toNat) :
    ∃ t, step s = .next t ∧ t.script = rest ∧ t.lookup n = some ⟨n, sint (c2iValue c), none⟩ ∧
      ∀ m, m ≠ n → t.lookup m = s.lookup m := by
  have fetched : s.fetch ⟨n, .c2i, o⟩ = .ok (.c2i c) := instrOf_c2i_toNat c ▸ fetch_of_operandWord hn hw
  refine ⟨_, step_of_fetch hs fetched (exec_c2i c _), rfl, ?_, fun m hm => ?_⟩
  · exact (lookup_bindResult_self _ ⟨n, .c2i, o⟩).trans (congrArg some (sample_c2i rfl n o))
  · exact lookup_bindResult_ne _ ⟨n, .c2i, o⟩ hm

/-- An I2C line binds I2C's two outputs. -/
theorem step_i2c_line {s : State} {n : Name} {o : Operand} {rest : List HostAction} {w : ValueWord}
    (hs : s.script = .eval ⟨n, .i2c, o⟩ :: rest) (hn : s.lookup n = none)
    (hw : s.operandWord ⟨n, .i2c, o⟩ = .ok w.toNat) :
    ∃ t, step s = .next t ∧ t.script = rest ∧
      t.lookup n = some ⟨n, (i2cCompact w).toNat, some (i2cOvf w)⟩ ∧ ∀ m, m ≠ n → t.lookup m = s.lookup m := by
  have fetched : s.fetch ⟨n, .i2c, o⟩ = .ok (.i2c w) := instrOf_i2c_toNat w ▸ fetch_of_operandWord hn hw
  refine ⟨_, step_of_fetch hs fetched (exec_i2c w _), rfl, ?_, fun m hm => ?_⟩
  · exact (lookup_bindResult_self _ ⟨n, .i2c, o⟩).trans (congrArg some (sample_i2c rfl rfl n o))
  · exact lookup_bindResult_ne _ ⟨n, .i2c, o⟩ hm

/-! ### The port word of an integer in range -/

theorem inPortRange_i2c_iff {x : Int} : inPortRange .i2c x = true ↔ InVR x := by
  simp only [inPortRange, decide_eq_true_eq, InVR]

theorem inPortRange_c2i_iff {x : Int} : inPortRange .c2i x = true ↔ 0 ≤ x ∧ x < 2 ^ 32 := by
  simp only [inPortRange, decide_eq_true_eq]

theorem integerWord_c2i {x : Int} (hnonneg : 0 ≤ x) (hlt : x < 2 ^ 32) :
    integerWord .c2i x = some (BitVec.ofNat 32 x.toNat).toNat := by
  rw [integerWord, if_pos (inPortRange_c2i_iff.mpr ⟨hnonneg, hlt⟩), BitVec.toNat_ofNat, Nat.mod_eq_of_lt (by omega)]

theorem integerWord_i2c {x : Int} (hx : InVR x) : integerWord .i2c x = some (tc x).toNat := by
  rw [integerWord, if_pos (inPortRange_i2c_iff.mpr hx)]

theorem integerWord_i2c_sint (w : ValueWord) : integerWord .i2c (sint w) = some w.toNat := by
  rw [integerWord_i2c (sint_inVR w), tc_sint]

/-! ### The statements on lines -/

/-- Settles O39: a literal in range is its own port word, and C2I's result is the closed form's. -/
theorem c2iLineBindsTheDecodedInteger : Obligations.C2iLineBindsTheDecodedInteger := by
  unfold Obligations.C2iLineBindsTheDecodedInteger
  intro s n x rest hs hn hnonneg hlt
  obtain ⟨t, hstep, hscript, hself, hother⟩ :=
    step_c2i_line hs hn (operandWord_literal rfl (integerWord_c2i hnonneg hlt))
  have word_eq : (BitVec.ofNat 32 x.toNat).toNat = x.toNat := by
    rw [BitVec.toNat_ofNat, Nat.mod_eq_of_lt (by omega)]
  refine ⟨t, hstep, hscript, ?_, hother⟩
  rw [hself, c2iIsItsClosedForm, word_eq]

/-- Settles O40: a literal in range has its two's complement word as port word, and I2C's outputs there are the closed
form's. -/
theorem i2cLineBindsTheEncodedWord : Obligations.I2cLineBindsTheEncodedWord := by
  unfold Obligations.I2cLineBindsTheEncodedWord
  intro s n x rest hs hn hx
  obtain ⟨t, hstep, hscript, hself, hother⟩ := step_i2c_line hs hn (operandWord_literal rfl (integerWord_i2c hx))
  obtain ⟨ovf_eq, compact_eq⟩ := i2cIsItsClosedForm x hx
  exact ⟨t, _, hstep, hscript, hself, congrArg some ovf_eq, fun hovf => congrArg Nat.cast (compact_eq hovf), hother⟩

/-- Settles O41: a C2I binding is a C2I result, which is its own port word and goes through I2C without overflow. -/
theorem chainedEvaluationNeverOverflows : Obligations.ChainedEvaluationNeverOverflows := by
  unfold Obligations.ChainedEvaluationNeverOverflows
  intro s n m b rest hinv hs hn hb hovf
  obtain ⟨-, results, -⟩ := hinv
  obtain ⟨c, hvalue⟩ : ∃ c : CompactWord, b.value = sint (c2iValue c) := by
    have result := results b (lookup_mem hb).1
    rwa [BindingIsResult, hovf] at result
  have port_word : integerWord .i2c b.value = some (c2iValue c).toNat := by rw [hvalue, integerWord_i2c_sint]
  obtain ⟨t, hstep, -, hself, -⟩ := step_i2c_line hs hn (operandWord_name rfl hb port_word)
  refine ⟨t, _, hstep, hself, congrArg some (i2cOvf_c2iValue c), ?_⟩
  rw [BitVec.ofInt_natCast, BitVec.ofNat_toNat, BitVec.setWidth_eq, c2iValue_i2cCompact_c2iValue, hvalue]

/-! ### A release, an idle step and the state at power-up -/

/-- Settles O44: a release changes one input port, and settling drives the other unit's outputs from its own. -/
theorem releaseLeavesTheOtherUnitAlone : Obligations.ReleaseLeavesTheOtherUnitAlone := by
  unfold Obligations.ReleaseLeavesTheOtherUnitAlone
  intro s op rest hs
  have hstep : step s = .next ({ s with script := rest }.release op).settle := by simp only [step, hs]
  cases op
  · refine ⟨_, hstep, rfl, rfl, rfl, rfl, fun w hw => ?_⟩
    simp [hw]
  · refine ⟨_, hstep, rfl, rfl, rfl, rfl, fun c hc => ?_⟩
    simp [hc]

/-- Settles O45: settling drives each held input's outputs again. -/
theorem idleStepKeepsHeldOutputs : Obligations.IdleStepKeepsHeldOutputs := by
  unfold Obligations.IdleStepKeepsHeldOutputs
  intro s c w hfollow hs hc hw
  obtain ⟨dec_eq, enc_eq⟩ := hfollow
  obtain ⟨compact_eq, ovf_eq⟩ := enc_eq w hw
  simp only [step, hs, State.settle, hc, hw, decValueOf_held, encCompactOf_held, encOvfOf_held, dec_eq c hc, compact_eq,
    ovf_eq]

/-- Settles O46: with no held input and no binding the invariant says nothing. -/
theorem resetMeetsTheInvariant : Obligations.ResetMeetsTheInvariant := by
  unfold Obligations.ResetMeetsTheInvariant
  refine ⟨⟨⟨fun c hc => ?_, fun w hw => ?_⟩, fun b hb => ?_, List.nodup_nil⟩, rfl, rfl, rfl, rfl⟩
  · cases hc
  · cases hw
  · exact absurd hb List.not_mem_nil

end Sys2Proof.Machine
end

section
/-! The invariant along every run, and that a well-formed script runs to its end (30_encoding.md R51;
70_reset_and_hazards.md R113; 93_implementation_defined.md U8). -/

namespace Sys2Proof.Machine

/-! ### Every step keeps the invariant -/

theorem inv_settle {s : State} (h : s.BindingsAreResults) : s.settle.Inv := ⟨settle_outputsFollowInputs s, h⟩

/-- An evaluation touches neither script nor bindings. -/
theorem exec_script_bindings {i : Instr} {s t : State} (h : exec i s = .next t) :
    t.script = s.script ∧ t.bindings = s.bindings := by
  cases i with
  | c2i c =>
    obtain rfl := exec_c2i_eq_next.mp h
    exact ⟨rfl, rfl⟩
  | i2c w =>
    obtain rfl := exec_i2c_eq_next.mp h
    exact ⟨rfl, rfl⟩

theorem isResult_c2i (n : Name) (c : CompactWord) : BindingIsResult ⟨n, sint (c2iValue c), none⟩ := by
  simp only [BindingIsResult]
  exact ⟨c, rfl⟩

theorem isResult_i2c (n : Name) (w : ValueWord) :
    BindingIsResult ⟨n, (i2cCompact w).toNat, some (i2cOvf w)⟩ := by
  simp only [BindingIsResult]
  exact ⟨w, rfl, rfl⟩

/-- What a line samples after its unit has run is a result of that unit. -/
theorem sample_settle_isResult {l : Line} {word : Nat} {s t : State} (h : exec (instrOf l.op word) s = .next t) :
    BindingIsResult (t.settle.sample l) := by
  obtain ⟨n, op, o⟩ := l
  cases op
  · obtain rfl := exec_c2i_eq_next.mp h
    have dec_eq : (s.driveC2i (BitVec.ofNat 32 word)).settle.decValue = c2iValue (BitVec.ofNat 32 word) := rfl
    rw [sample_c2i dec_eq]
    exact isResult_c2i n _
  · obtain rfl := exec_i2c_eq_next.mp h
    have compact_eq : (s.driveI2c (BitVec.ofNat 2040 word)).settle.encCompact = i2cCompact (BitVec.ofNat 2040 word) :=
      rfl
    have ovf_eq : (s.driveI2c (BitVec.ofNat 2040 word)).settle.encOvf = i2cOvf (BitVec.ofNat 2040 word) := rfl
    rw [sample_i2c compact_eq ovf_eq]
    exact isResult_i2c n _

/-- Binding a new name to a result keeps the invariant. -/
theorem inv_bindResult {s : State} {l : Line} (h : s.Inv) (hn : s.lookup l.name = none)
    (hresult : BindingIsResult (s.sample l)) : (s.bindResult l).Inv := by
  obtain ⟨hfollow, hresults, hnodup⟩ := h
  refine ⟨hfollow, ?_, ?_⟩
  · rw [State.bindResult_bindings]
    exact List.forall_mem_cons.mpr ⟨hresult, hresults⟩
  · rw [State.bindResult_bindings, List.map_cons, List.nodup_cons, sample_name]
    exact ⟨lookup_eq_none.mp hn, hnodup⟩

/-- Settles O47: settling makes the outputs follow, and a fetched line binds a new name to its unit's result. -/
theorem stepKeepsTheInvariant : Obligations.StepKeepsTheInvariant := by
  unfold Obligations.StepKeepsTheInvariant
  rintro s t ⟨-, hbindings⟩ h
  rcases step_cases h with ⟨-, rfl⟩ | ⟨op, rest, -, rfl⟩ | ⟨l, rest, i, u, -, hf, hu, rfl⟩
  · exact inv_settle hbindings
  · cases op <;> exact inv_settle hbindings
  · obtain ⟨hn, word, -, -, rfl⟩ := fetch_ok.mp hf
    obtain ⟨-, same_bindings⟩ := exec_script_bindings hu
    have hu_bindings : u.BindingsAreResults := by
      rw [State.BindingsAreResults, same_bindings]
      exact hbindings
    have hu_lookup : u.settle.lookup l.name = none := by
      rw [lookup_eq_none, State.settle_bindings, same_bindings]
      exact lookup_eq_none.mp hn
    exact inv_bindResult (inv_settle hu_bindings) hu_lookup (sample_settle_isResult hu)

/-- Settles O48: only a line binds, and it binds its own name in front. -/
theorem stepOnlyAddsABinding : Obligations.StepOnlyAddsABinding := by
  unfold Obligations.StepOnlyAddsABinding
  intro s t h
  rcases step_cases h with ⟨hs, rfl⟩ | ⟨op, rest, hs, rfl⟩ | ⟨l, rest, i, u, hs, -, hu, rfl⟩
  · rw [State.settle_script, hs]
    exact ⟨rfl, .inl rfl⟩
  · rw [hs]
    cases op <;> exact ⟨rfl, .inl rfl⟩
  · obtain ⟨same_script, same_bindings⟩ := exec_script_bindings hu
    rw [State.bindResult_script, State.settle_script, same_script, hs]
    refine ⟨rfl, .inr ⟨l, rest, u.settle.sample l, rfl, ?_, sample_name _ l⟩⟩
    rw [State.bindResult_bindings, State.settle_bindings, same_bindings]

/-- So a bound name stays bound. -/
theorem step_keeps_bound {s t : State} (h : step s = .next t) {n : Name} (hn : s.lookup n ≠ none) :
    t.lookup n ≠ none := by
  rw [ne_eq, lookup_eq_none, not_not] at hn ⊢
  obtain ⟨-, same | ⟨l, rest, b, -, added, -⟩⟩ := stepOnlyAddsABinding s t h
  · rwa [same]
  · rw [added, List.map_cons]
    exact List.mem_cons_of_mem _ hn

/-! ### A well-formed line is never refused -/

theorem inVR_compactWord (c : CompactWord) : InVR c.toNat := by
  apply inVR_of_natAbs_lt
  rw [Int.natAbs_natCast]
  exact lt_of_lt_of_le c.isLt (pow_le_pow_right₀ (by decide) (by decide))

/-- Every bound integer is an I2C operand: a C2I result or a compact word. -/
theorem inPortRange_i2c_of_isResult {b : Binding} (h : BindingIsResult b) : inPortRange .i2c b.value = true := by
  unfold BindingIsResult at h
  split at h
  · obtain ⟨c, hvalue⟩ := h
    rw [inPortRange_i2c_iff, hvalue]
    exact sint_inVR _
  · obtain ⟨w, hvalue, -⟩ := h
    rw [inPortRange_i2c_iff, hvalue]
    exact inVR_compactWord _

/-- The integer an I2C line bound is a compact word, so a C2I operand. -/
theorem inPortRange_c2i_of_isResult {b : Binding} (h : BindingIsResult b) (hovf : b.ovf.isSome = true) :
    inPortRange .c2i b.value = true := by
  unfold BindingIsResult at h
  split at h
  next hnone => rw [hnone] at hovf; cases hovf
  next =>
    obtain ⟨w, hvalue, -⟩ := h
    have hlt := (i2cCompact w).isLt
    rw [inPortRange_c2i_iff, hvalue]
    omega

theorem operandWord_name_of_inPortRange {s : State} {l : Line} {n : Name} {b : Binding} (hl : l.operand = .name n)
    (hb : s.lookup n = some b) (hrange : inPortRange l.op b.value = true) : ∃ word, s.operandWord l = .ok word := by
  obtain ⟨word, hw⟩ := Option.isSome_iff_exists.mp ((integerWord_isSome l.op b.value).trans hrange)
  exact ⟨word, operandWord_name hl hb hw⟩

/-- What the check of a name knows: it is bound, and by an I2C line where C2I takes it. -/
theorem lookup_of_wf_name {s : State} {op : Op} {n : Name} (h : (Operand.name n).wf s.known op = true) :
    ∃ b, s.lookup n = some b ∧ (op = .c2i → b.ovf.isSome = true) := by
  cases op
  · rw [Operand.wf, beq_iff_eq, known_lookup, Option.map_eq_some_iff] at h
    obtain ⟨b, hb, hop⟩ := h
    exact ⟨b, hb, fun _ => by by_contra hovf; rw [if_neg hovf] at hop; cases hop⟩
  · rw [Operand.wf, known_lookup, Option.isSome_map] at h
    obtain ⟨b, hb⟩ := Option.isSome_iff_exists.mp h
    exact ⟨b, hb, fun hop => nomatch hop⟩

theorem operandWord_of_wf {s : State} {l : Line} (hinv : s.Inv) (hwf : l.operand.wf s.known l.op = true) :
    ∃ word, s.operandWord l = .ok word := by
  cases hl : l.operand with
  | literal x =>
    rw [hl, Operand.wf, ← integerWord_isSome] at hwf
    obtain ⟨word, hw⟩ := Option.isSome_iff_exists.mp hwf
    exact ⟨word, operandWord_literal hl hw⟩
  | levels pins =>
    rw [hl, Operand.wf] at hwf
    obtain ⟨word, hw⟩ := Option.isSome_iff_exists.mp hwf
    exact ⟨word, operandWord_levels hl hw⟩
  | name n =>
    rw [hl] at hwf
    obtain ⟨b, hb, hc2i⟩ := lookup_of_wf_name hwf
    obtain ⟨-, hresults, -⟩ := hinv
    have hresult := hresults b (lookup_mem hb).1
    apply operandWord_name_of_inPortRange hl hb
    cases hop : l.op
    · exact inPortRange_c2i_of_isResult hresult (hc2i hop)
    · exact inPortRange_i2c_of_isResult hresult

theorem known_eq_of_bindings {s t : State} (h : t.bindings = s.bindings) : t.known = s.known := by
  rw [State.known, h, State.known]

/-- Sampling sets an overflow bit for I2C lines only, which is how `known` tells the units apart. -/
theorem known_bindResult (s : State) (l : Line) : (s.bindResult l).known = (l.name, l.op) :: s.known := by
  obtain ⟨n, op, o⟩ := l
  cases op <;> rfl

/-- A well-formed line runs, and leaves the rest of the script well formed. -/
theorem step_of_wf_eval {s : State} {l : Line} {rest : List HostAction} (hinv : s.Inv)
    (hs : s.script = .eval l :: rest) (hwf : scriptWf s.known s.script = true) :
    ∃ t, step s = .next t ∧ t.script = rest ∧ scriptWf t.known rest = true ∧ t.lookup l.name ≠ none := by
  rw [hs, scriptWf, Bool.and_eq_true, Line.wf, Bool.and_eq_true] at hwf
  obtain ⟨⟨hnew, hoperand⟩, hrest⟩ := hwf
  have hn : s.lookup l.name = none := by
    rw [known_lookup, Option.isNone_map, Option.isNone_iff_eq_none] at hnew
    exact hnew
  obtain ⟨word, hw⟩ := operandWord_of_wf hinv hoperand
  obtain ⟨u, hu⟩ := exec_total (instrOf l.op word) { s with script := rest }
  obtain ⟨same_script, same_bindings⟩ := exec_script_bindings hu
  refine ⟨_, step_of_fetch hs (fetch_of_operandWord hn hw) hu, same_script, ?_, ?_⟩
  · rw [known_bindResult, known_eq_of_bindings (t := u.settle) (s := s) same_bindings]
    exact hrest
  · rw [lookup_bindResult_self]
    exact Option.some_ne_none _

theorem step_of_wf_release {s : State} {op : Op} {rest : List HostAction} (hs : s.script = .release op :: rest)
    (hwf : scriptWf s.known s.script = true) :
    ∃ t, step s = .next t ∧ t.script = rest ∧ scriptWf t.known rest = true := by
  obtain ⟨t, hstep, hscript, hbindings, -⟩ := releaseLeavesTheOtherUnitAlone s op rest hs
  rw [hs, scriptWf, ← known_eq_of_bindings hbindings] at hwf
  exact ⟨t, hstep, hscript, hwf⟩

/-! ### A well-formed script runs to its end -/

theorem run_succ {s t : State} (h : step s = .next t) (k : Nat) :
    Host.Core.run core (k + 1) s = Host.Core.run core k t := by
  have core_steps : core.step s = .next t := h
  simp only [Host.Core.run, core_steps]

/-- The run of a well-formed script, with what it keeps bound. -/
theorem run_of_wf (script : List HostAction) : ∀ s : State, s.script = script → s.Inv →
    scriptWf s.known s.script = true →
    ∃ t : State, Host.Core.run core script.length s = .next t ∧ t.script = [] ∧ t.Inv ∧
      (∀ n, s.lookup n ≠ none → t.lookup n ≠ none) ∧ ∀ l, .eval l ∈ script → t.lookup l.name ≠ none := by
  induction script with
  | nil => exact fun s hs hinv _ => ⟨s, rfl, hs, hinv, fun _ hn => hn, fun l hl => absurd hl List.not_mem_nil⟩
  | cons action rest ih =>
    intro s hs hinv hwf
    obtain ⟨t, hstep, hscript, hrest, hbound⟩ : ∃ t, step s = .next t ∧ t.script = rest ∧
        scriptWf t.known rest = true ∧ ∀ l, action = .eval l → t.lookup l.name ≠ none := by
      cases action with
      | eval l =>
        obtain ⟨t, hstep, hscript, hrest, hl⟩ := step_of_wf_eval hinv hs hwf
        exact ⟨t, hstep, hscript, hrest, fun l' hl' => by cases hl'; exact hl⟩
      | release op =>
        obtain ⟨t, hstep, hscript, hrest⟩ := step_of_wf_release hs hwf
        exact ⟨t, hstep, hscript, hrest, fun l hl => nomatch hl⟩
    obtain ⟨u, hrun, hdone, huinv, hkeep, hlines⟩ :=
      ih t hscript (stepKeepsTheInvariant s t hinv hstep) (hscript ▸ hrest)
    refine ⟨u, (run_succ hstep _).trans hrun, hdone, huinv,
      fun n hn => hkeep n (step_keeps_bound hstep hn), fun l hl => ?_⟩
    rcases List.mem_cons.mp hl with rfl | hmem
    · exact hkeep _ (hbound l rfl)
    · exact hlines l hmem

/-- Settles O49: each well-formed line runs and leaves a well-formed rest, so the script is used up. -/
theorem wellFormedScriptRunsToItsEnd : Obligations.WellFormedScriptRunsToItsEnd := by
  unfold Obligations.WellFormedScriptRunsToItsEnd
  intro s hinv hwf
  obtain ⟨t, hrun, hscript, htinv, -, hlines⟩ := run_of_wf s.script s rfl hinv hwf
  exact ⟨t, hrun, hscript, htinv, hlines⟩

end Sys2Proof.Machine
end
